-- ==== Sys2Proof/Word.lean ====
section
/-! DEFINITION. The word types of TSDMX (R9, R10, R11): bit 0 is the least significant bit and every value is unsigned. -/

namespace Sys2Proof

/-- A byte, bits 7 to 0 (R11). -/
abbrev Byte := BitVec 8

/-- A bus data word or register (R10). -/
abbrev Word := BitVec 32

/-- A byte address of the 4 KiB host window (R10, R60). -/
abbrev Addr := BitVec 12

end Sys2Proof
end

