-- ==== Sys2Proof/Config.lean ====
section
/-! DEFINITION. What is fixed for one TSDMX block: the packet size and the open parameter ASM_CAP. -/

namespace Sys2Proof.Config

/-- PKT_SIZE, "a fixed 188-byte opaque buffer" (R7). -/
abbrev pktSize : Nat := 188

/-- TS_HDR_LEN (R7). -/
abbrev tsHdrLen : Nat := 4

/-- The least ASM_CAP the spec allows (R8). -/
abbrev asmCapMin : Nat := 184

/-- The largest ASM_CAP the spec allows, 2^32 - 1 (R8). -/
abbrev asmCapMax : Nat := 4294967295

/-- The part of ASM_CAP above its least value: any of the 2^32 - 184 values R8 leaves open, and no
proof can tell which. Log entry 4 (safe). -/
opaque asmCapExtra : Fin 4294967112

/-- ASM_CAP, the capacity of the assembly buffer in bytes, the spec's one OPEN parameter (R8, D24). -/
def asmCap : Nat := asmCapMin + asmCapExtra.val

end Sys2Proof.Config
end

