-- ==== Sys2Proof/Syntax.lean ====
section
/-! DEFINITION. The ten instructions of spec/opcode_table.json and the encoded words they are read from. -/

namespace Sys2Proof

/-- The fields of the TS header word W that are operands of a packet class (R81).
PUSI is no operand: it selects the class (R89). -/
structure TsHeader where
  sync : BitVec 8
  tei  : Bool
  prio : Bool
  pid  : BitVec 13
  tsc  : BitVec 2
  afc  : BitVec 2
  cc   : BitVec 4
  deriving DecidableEq, Repr

/-- HAS_AF (R82): AFC is 2 or 3. -/
def TsHeader.hasAf (h : TsHeader) : Bool := h.afc == 2 || h.afc == 3

/-- One constructor per row of the opcode table. -/
inductive Instr where
  /-- Command word 0 (R221). -/
  | nop
  /-- Command word 1 (R222). -/
  | init
  /-- Command word 2 (R223). -/
  | absorb
  /-- The packet class with PUSI = 1 (R89, R183 to R189). -/
  | start (h : TsHeader)
  /-- The packet class with PUSI = 0 and HAS_AF = 0 (R89, R194). -/
  | continuation (h : TsHeader)
  /-- The packet class with PUSI = 0 and HAS_AF = 1 (R89, R195). -/
  | completion (h : TsHeader)
  /-- 8-bit bus read (R241). -/
  | rd8 (addr : Addr)
  /-- 32-bit bus read (R240). -/
  | rd32 (addr : Addr)
  /-- 8-bit bus write; the data operand is 8 bits wide (R243, log entry 15). -/
  | wr8 (addr : Addr) (data : Byte)
  /-- 32-bit bus write (R242). -/
  | wr32 (addr : Addr) (data : Word)
  deriving DecidableEq, Repr

/-- One line of a host listing: the header H and the data word D when there is one (R90). -/
structure BusLine where
  header : BitVec 16
  data   : Option Word
  deriving DecidableEq, Repr

/-- An encoded instruction, tagged by its format (R80): which of the three formats a word has is
known from where it stands (written to CMD, in P[0..3], or in a host listing), not from its bits. -/
inductive Encoded where
  | cmd (d : Word)
  | tsh (w : Word)
  | bus (line : BusLine)
  deriving DecidableEq, Repr

end Sys2Proof
end

