-- ==== Sys2Proof/WellFormed.lean ====
section
/-! DEFINITION. Which instruction terms an encoding can spell. The operand widths are carried by the
types, so the checks left are the two on AFC that R89 makes. -/

namespace Sys2Proof

/-- A packet-class term is well formed when its AFC agrees with its class (R89): a CONTINUATION has
HAS_AF = 0 and a COMPLETION has HAS_AF = 1. Every other operand takes every value of its width. -/
def Instr.wf : Instr → Bool
  | .nop => true
  | .init => true
  | .absorb => true
  | .start _ => true
  | .continuation h => !h.hasAf
  | .completion h => h.hasAf
  | .rd8 _ => true
  | .rd32 _ => true
  | .wr8 _ _ => true
  | .wr32 _ _ => true

end Sys2Proof
end

