-- ==== Sys2Proof/Decode.lean ====
section
/-! DEFINITION. The decoder of the three formats (R80 to R91), the encoder, and the words the opcode
table numbers. -/

namespace Sys2Proof

/-- Why a word spells no instruction. -/
inductive DecodeError where
  /-- A command word other than 0, 1 and 2 (R88). No listing is refused for it: the block sets CMD_ERR (R224). -/
  | reservedCommand
  /-- H[13:12] is not 0: "a listing decoder refuses it" (R90). -/
  | reservedHeaderBits
  /-- A WR8 line with D[31:8] not 0 (R90; 93_implementation_defined.md item 18). -/
  | wr8DataTooWide
  /-- A write line with no data word (R90, log entry 6). -/
  | writeWithoutData
  /-- A read line with a data word (R90, log entry 6). -/
  | readWithData
  deriving DecidableEq, Repr

/-! ### CMD format -/

/-- The three command rows of the opcode map (R88). -/
inductive Command where
  | nop
  | init
  | absorb
  deriving DecidableEq, Repr

/-- The command a word written to CMD encodes; none for a reserved command (R87, R88). -/
def commandOf (d : Word) : Option Command :=
  if d = 0x00000000#32 then some .nop
  else if d = 0x00000001#32 then some .init
  else if d = 0x00000002#32 then some .absorb
  else none

/-! ### TSH format -/

/-- The three packet classes (R89). -/
inductive PacketClass where
  | start
  | continuation
  | completion
  deriving DecidableEq, Repr

/-- The class of a header word by the masks of R89; the third row is what the first two leave. -/
def packetClass (w : Word) : PacketClass :=
  if w &&& 0x00400000#32 = 0x00400000#32 then .start
  else if w &&& 0x00400020#32 = 0x00000000#32 then .continuation
  else .completion

/-- The operand fields of a header word W, at the bit positions of R81. -/
def headerOf (w : Word) : TsHeader :=
  { sync := w.extractLsb' 24 8
    tei  := w.getLsbD 23
    prio := w.getLsbD 21
    pid  := w.extractLsb' 8 13
    tsc  := w.extractLsb' 6 2
    afc  := w.extractLsb' 4 2
    cc   := w.extractLsb' 0 4 }

/-! ### BUS format -/

/-- The transaction one listing line spells (R90). -/
def decodeLine (l : BusLine) : Except DecodeError Instr :=
  if l.header.extractLsb' 12 2 ≠ 0#2 then .error .reservedHeaderBits
  else
    let addr : Addr := l.header.extractLsb' 0 12
    match l.header.getLsbD 15, l.header.getLsbD 14, l.data with
    | false, false, none => .ok (.rd8 addr)
    | false, true, none => .ok (.rd32 addr)
    | false, _, some _ => .error .readWithData
    | true, _, none => .error .writeWithoutData
    | true, false, some d =>
      if d.extractLsb' 8 24 = 0#24 then .ok (.wr8 addr (d.extractLsb' 0 8)) else .error .wr8DataTooWide
    | true, true, some d => .ok (.wr32 addr d)

/-! ### The decoder -/

/-- The instruction an encoded word spells, or the reason it spells none. -/
def decode : Encoded → Except DecodeError Instr
  | .cmd d =>
    match commandOf d with
    | some .nop => .ok .nop
    | some .init => .ok .init
    | some .absorb => .ok .absorb
    | none => .error .reservedCommand
  | .tsh w =>
    match packetClass w with
    | .start => .ok (.start (headerOf w))
    | .continuation => .ok (.continuation (headerOf w))
    | .completion => .ok (.completion (headerOf w))
  | .bus l => decodeLine l

/-! ### The encoder -/

/-- The header word W of the given operand fields and PUSI: SYNC, TEI, PUSI, PRIO, PID, TSC, AFC and
CC from bit 31 down to bit 0 (R81). -/
def headerWord (h : TsHeader) (pusi : Bool) : Word :=
  h.sync ++ BitVec.ofBool h.tei ++ BitVec.ofBool pusi ++ BitVec.ofBool h.prio ++ h.pid ++ h.tsc ++ h.afc ++ h.cc

/-- The header H of a transaction: its kind's bits 15 and 14, and the address (R90). -/
def busHeader (kind : BitVec 16) (addr : Addr) : BitVec 16 := kind ||| addr.setWidth 16

/-- The words of an instruction (R81, R88, R90). -/
def encode : Instr → Encoded
  | .nop => .cmd 0x00000000#32
  | .init => .cmd 0x00000001#32
  | .absorb => .cmd 0x00000002#32
  | .start h => .tsh (headerWord h true)
  | .continuation h => .tsh (headerWord h false)
  | .completion h => .tsh (headerWord h false)
  | .rd8 a => .bus ⟨busHeader 0x0000#16 a, none⟩
  | .rd32 a => .bus ⟨busHeader 0x4000#16 a, none⟩
  | .wr8 a d => .bus ⟨busHeader 0x8000#16 a, some (d.setWidth 32)⟩
  | .wr32 a d => .bus ⟨busHeader 0xC000#16 a, some d⟩

/-! ### Words as the opcode table numbers them -/

/-- The encoded word of a table row (log entry 8): a BUS row has 16 bits (H), or 48 with its data word
in bits 47 to 16; a TSH row's fixed bits end at bit 22, so it has 24 bits, the rest of W being 0; a
CMD row has 32. A 32-bit word that is no command row can only be a header word W. DESIGN CHOICE: a write
header alone has the data word 0, and the bits above the header of a read are dropped, so 48 bits with a
read header are that read; a listing line with them is refused (`decodeLine`). -/
def tableEncoded (nbits w : Nat) : Option Encoded :=
  let w := w % 2 ^ nbits
  match nbits with
  | 16 => some (.bus ⟨BitVec.ofNat 16 w, if w.testBit 15 then some 0#32 else none⟩)
  | 48 => some (.bus ⟨BitVec.ofNat 16 w, if w.testBit 15 then some (BitVec.ofNat 32 (w >>> 16)) else none⟩)
  | 24 => some (.tsh (BitVec.ofNat 32 w))
  | 32 =>
    match commandOf (BitVec.ofNat 32 w) with
    | some _ => some (.cmd (BitVec.ofNat 32 w))
    | none => some (.tsh (BitVec.ofNat 32 w))
  | _ => none

/-- The instruction the decoder reads from a table row's bits. -/
def decodeTableWord (nbits w : Nat) : Option Instr :=
  match tableEncoded nbits w with
  | none => none
  | some e =>
    match decode e with
    | .ok i => some i
    | .error _ => none

end Sys2Proof
end

