-- ==== Sys2Proof/Machine/State.lean ====
section
/-! DEFINITION. The state of the block, of its host and of its sink, as plain data; the state after
reset; the reasons a step can stop. -/

namespace Sys2Proof.Machine

/-- PKT: (offset, byte) pairs, offsets strictly rising and below 188. An offset that is not listed
holds no value (R22, R46). -/
abbrev Memory := List Host.Cell

/-- A byte sequence: a packet, the assembly buffer or a unit. -/
abbrev Bytes := List Byte

/-- CONFIG (R23). The reserved bits read 0 and need no storage (R47). -/
structure ConfigReg where
  pid : BitVec 13
  raw : Bool
  deriving DecidableEq, Repr

/-- The assembler state `fsm` (R25). -/
inductive Fsm where
  | idle
  | assembling
  deriving DecidableEq, Repr

/-- RESULT.CODE (R31). -/
inductive Code where
  | none
  | lost
  | started
  | continued
  | finished
  deriving DecidableEq, Repr

/-- RESULT.CAUSE (R32). -/
inductive Cause where
  | none
  | truncAf
  | truncPesMin
  | truncPesHdr
  | truncPesTs
  | invalidStartCode
  | continuityBroken
  | notAssembling
  | bufferOverflow
  deriving DecidableEq, Repr

/-- RESULT (R30). -/
structure ResultReg where
  code          : Code
  cause         : Cause
  unexpectedPid : Bool
  sinkWritten   : Bool
  appended      : BitVec 8
  deriving DecidableEq, Repr

/-- The TS header bank, TSH_WORD and TSH_FIELDS (R36). -/
structure TshBank where
  word : BitVec 32
  sync : BitVec 8
  tei  : Bool
  pusi : Bool
  prio : Bool
  pid  : BitVec 13
  tsc  : BitVec 2
  afc  : BitVec 2
  cc   : BitVec 4
  deriving DecidableEq, Repr

/-- The adaptation-field bank: AF_FIELDS (R37) and the PCR registers (R38). -/
structure AfBank where
  len      : BitVec 8
  flags    : BitVec 8
  stuff    : BitVec 8
  valid    : Bool
  pcrValid : Bool
  pcrBase  : BitVec 33
  pcrTicks : BitVec 42
  deriving DecidableEq, Repr

/-- The PES header bank: PES_ID and PES_FIELDS (R39), PES_STATUS (R40) and the timestamps (R41). -/
structure PesBank where
  startCode    : BitVec 24
  streamId     : BitVec 8
  packetLength : BitVec 16
  ptsDtsFlags  : BitVec 2
  extFlags     : BitVec 6
  hdrDataLen   : BitVec 8
  hdrTotalLen  : BitVec 9
  valid        : Bool
  startCodeOk  : Bool
  ptsValid     : Bool
  dtsValid     : Bool
  pts          : BitVec 33
  dts          : BitVec 33
  deriving DecidableEq, Repr

/-- A value a host read returned: a byte from RD8, a word from RD32 (R19, R240, R241). -/
inductive HostRead where
  | byte (v : Byte)
  | word (v : Word)
  deriving DecidableEq, Repr

/-- The whole state. ASM_LEN, STATUS and every 32-bit register word are views of these fields
(log entries 9 and 10; `regValue`). -/
structure State where
  /-- The packet buffer PKT (R22). -/
  pkt : Memory
  /-- CONFIG (R23). -/
  config : ConfigReg
  /-- The assembler state (R25). -/
  fsm : Fsm
  /-- LASTCC, the source's Option<4-bit> (R26). -/
  lastCc : Option (BitVec 4)
  /-- TRACKED_PID (R27). -/
  trackedPid : BitVec 13
  /-- The assembly buffer ASMBUF; ASM_LEN is its length (R28). -/
  asmBuf : Bytes
  /-- RESULT (R30). -/
  result : ResultReg
  /-- STATUS.CMD_ERR (R33). -/
  cmdErr : Bool
  /-- STATUS.BUS_ERR (R33). -/
  busErr : Bool
  /-- SINK_LEN (R35). -/
  sinkLen : Word
  /-- The TS header bank (R36). -/
  tsh : TshBank
  /-- The adaptation-field bank (R37, R38). -/
  af : AfBank
  /-- The PES header bank (R39 to R41). -/
  pes : PesBank
  /-- The sink log (R43). -/
  sinkLog : List Bytes
  /-- The parameter ASM_CAP (R8); no step changes it (log entry 4). -/
  asmCap : Nat
  /-- The transactions the host has still to issue, the next one first (R18, R21; log entry 2). -/
  hostProgram : List BusLine
  /-- The values the host has read so far, in order (R19; log entry 5). -/
  hostReads : List HostRead
  deriving DecidableEq, Repr

/-- Why the machine stops with a fault. -/
inductive Fault where
  /-- A read of a PKT byte that holds no value, by RD8, RD32 or ABSORB or a packet class (R46, R282).
  Safe: the hardware goes on with some byte. -/
  | unwrittenPacketByte
  deriving DecidableEq, Repr

/-- Why a step is refused. -/
inductive Refusal where
  /-- An instruction with no meaning yet. Raised by no arm of exec: all ten instructions have one. Safe. -/
  | notModelled (mnemonic : String)
  /-- The host's next listing line spells no transaction (R90), so there is nothing to run. Raised by
  step only. Safe: "a listing decoder refuses it". -/
  | illFormedListing (why : DecodeError)
  deriving DecidableEq, Repr

/-- RESULT = 0 (R30, R45). -/
def ResultReg.zero : ResultReg :=
  { code := .none, cause := .none, unexpectedPid := false, sinkWritten := false, appended := 0 }

/-- TSH_WORD = TSH_FIELDS = 0 (R36, R45). -/
def TshBank.zero : TshBank :=
  { word := 0, sync := 0, tei := false, pusi := false, prio := false, pid := 0, tsc := 0, afc := 0, cc := 0 }

/-- AF_FIELDS and the PCR registers 0 (R37, R38, R45). -/
def AfBank.zero : AfBank :=
  { len := 0, flags := 0, stuff := 0, valid := false, pcrValid := false, pcrBase := 0, pcrTicks := 0 }

/-- The PES bank all 0 (R39 to R41, R45). -/
def PesBank.zero : PesBank :=
  { startCode := 0, streamId := 0, packetLength := 0, ptsDtsFlags := 0, extFlags := 0, hdrDataLen := 0,
    hdrTotalLen := 0, valid := false, startCodeOk := false, ptsValid := false, dtsValid := false, pts := 0, dts := 0 }

/-- The state after a hardware reset of a block whose ASM_CAP is the given one (R45, R290): "a named
parameter the model takes as an argument" (R8). The host has issued and read nothing. -/
def State.resetWith (cap : Nat) : State :=
  { pkt := [], config := { pid := 0, raw := false }, fsm := .idle, lastCc := none, trackedPid := 0,
    asmBuf := [], result := ResultReg.zero, cmdErr := false, busErr := false, sinkLen := 0,
    tsh := TshBank.zero, af := AfBank.zero, pes := PesBank.zero, sinkLog := [], asmCap := cap,
    hostProgram := [], hostReads := [] }

/-- The machine right after reset (R45, R290). ASM_CAP is the open parameter (log entry 4). -/
def State.reset : State := State.resetWith Config.asmCap

end Sys2Proof.Machine
end

