-- ==== Sys2Proof/Machine/Ops.lean ====
section
/-! DEFINITION. The named operations over the packet buffer, the assembly buffer, the sink and the
registers (R14), and the one operation that each kind of error takes (R260, R272). -/

namespace Sys2Proof.Machine

/-! ### The packet buffer as memory -/

/-- The canonical form of PKT: offsets strictly rising from `lo` on, all below 188. -/
def Memory.wfFrom : Nat → Memory → Bool
  | _, [] => true
  | lo, (k, _) :: r => decide (lo ≤ k) && decide (k < Config.pktSize) && Memory.wfFrom (k + 1) r

/-- The canonical form of PKT. No entry can equal what an unlisted offset holds, since that is no value. -/
def Memory.wf (m : Memory) : Bool := Memory.wfFrom 0 m

/-- P[a], or none when the byte holds no value (R46). -/
def Memory.read : Memory → Nat → Option Byte
  | [], _ => none
  | (k, v) :: r, a => if k = a then some v else Memory.read r a

/-- P[a] <- b, keeping the offsets strictly rising. -/
def Memory.write : Memory → Nat → Byte → Memory
  | [], a, b => [(a, b)]
  | (k, v) :: r, a, b =>
    if a < k then (a, b) :: (k, v) :: r
    else if k = a then (a, b) :: r
    else (k, v) :: Memory.write r a b

/-- The n bytes from offset a on, or none when one of them holds no value. -/
def Memory.readBytes (m : Memory) (a : Nat) : Nat → Option Bytes
  | 0 => some []
  | n + 1 =>
    match m.read a, Memory.readBytes m (a + 1) n with
    | some b, some r => some (b :: r)
    | _, _ => none

/-- Writes the bytes at offsets a, a + 1 and so on. -/
def Memory.writeBytes (m : Memory) (a : Nat) : Bytes → Memory
  | [] => m
  | b :: r => Memory.writeBytes (m.write a b) (a + 1) r

/-- The buffer that holds exactly the given bytes from offset a on. -/
def Memory.ofBytes (a : Nat) : Bytes → Memory
  | [] => []
  | b :: r => (a, b) :: Memory.ofBytes (a + 1) r

/-- The bytes of a word, bits [7:0] first (the lanes of R63). -/
def bytesLE (w : Word) : Bytes :=
  [w.extractLsb' 0 8, w.extractLsb' 8 8, w.extractLsb' 16 8, w.extractLsb' 24 8]

/-- The word of four bytes, the first in bits [7:0] (the lanes of R63). -/
def wordLE (b0 b1 b2 b3 : Byte) : Word := b3 ++ b2 ++ b1 ++ b0

/-- The bytes of a word, bits [31:24] first (the packet's order, R62). -/
def bytesBE (w : Word) : Bytes :=
  [w.extractLsb' 24 8, w.extractLsb' 16 8, w.extractLsb' 8 8, w.extractLsb' 0 8]

/-- "snapshot P[0..187]" (R180): the packet, or none when a byte of it holds no value (R46). -/
def snapshot (s : State) : Option Bytes := s.pkt.readBytes 0 Config.pktSize

/-- One byte of PKT written (R243). -/
def writeByte (a : Nat) (b : Byte) (s : State) : State := { s with pkt := s.pkt.write a b }

/-- Four bytes of PKT written, the data's bits [7:0] at the lowest offset (R63, R242). -/
def writeWord (a : Nat) (d : Word) (s : State) : State := { s with pkt := s.pkt.writeBytes a (bytesLE d) }

/-! ### Byte sequences of the packet -/

/-- P[lo..hi) (R13). -/
def slice (p : Bytes) (lo hi : Nat) : Bytes := (p.drop lo).take (hi - lo)

/-- P[k] as a natural number (R12, R13). Every use is at an offset below 188 of a 188-byte packet, so
the 0 past the end is never read (`Laws.Parse`). -/
def byteAt (p : Bytes) (k : Nat) : Nat := (p.getD k 0).toNat

/-! ### The assembly buffer and the sink (R14, R196) -/

/-- ASM_LEN (R28). -/
def State.asmLen (s : State) : Nat := s.asmBuf.length

/-- BufClear() (R14). -/
def bufClear (s : State) : State := { s with asmBuf := [] }

/-- BufAppend(lo, hi) (R14) together with RESULT.APPENDED <- hi - lo, which every append writes
(R187, R194, R195). -/
def bufAppend (p : Bytes) (lo hi : Nat) (s : State) : State :=
  { s with asmBuf := s.asmBuf ++ slice p lo hi
           result := { s.result with appended := BitVec.ofNat 8 (hi - lo) } }

/-- SinkWrite(ASMBUF) (R196). The sink accepts at once (R276). -/
def sinkWrite (s : State) : State :=
  { s with sinkLog := s.sinkLog ++ [s.asmBuf]
           sinkLen := BitVec.ofNat 32 s.asmLen
           result := { s.result with sinkWritten := true } }

/-! ### Assembler registers -/

/-- fsm <- f (R25). -/
def setFsm (f : Fsm) (s : State) : State := { s with fsm := f }

/-- LASTCC_VALID <- 1; LASTCC_VAL <- cc (R188, R192). -/
def recordCc (cc : BitVec 4) (s : State) : State := { s with lastCc := some cc }

/-- The PID re-tracking of a start packet (R183): UnexpectedPid is recorded and is no failure (R265). -/
def retrack (pid : BitVec 13) (s : State) : State :=
  if pid = s.trackedPid then s
  else { s with trackedPid := pid, result := { s.result with unexpectedPid := true } }

/-- The PES bank as a PES_PARSE leaves it (R151). -/
def setPes (b : PesBank) (s : State) : State := { s with pes := b }

/-! ### Outcomes and errors -/

/-- finish(code, cause) (R14). -/
def finish (code : Code) (cause : Cause) (s : State) : State :=
  { s with result := { s.result with code := code, cause := cause } }

/-- What every failure inside ABSORB does: "fsm becomes IDLE and ASMBUF is emptied" and the step ends
with RESULT.CODE = LOST and the cause (R260, R272). There is no handler and nothing to return from (R273). -/
def lose (cause : Cause) (s : State) : State := finish .lost cause (setFsm .idle (bufClear s))

/-- raise BusError (R14, R266). -/
def raiseBusError (s : State) : State := { s with busErr := true }

/-- CommandError (R224, R267). -/
def raiseCommandError (s : State) : State := { s with cmdErr := true }

/-- A read returns a value to the host (R19). -/
def returnRead (v : HostRead) (s : State) : State := { s with hostReads := s.hostReads ++ [v] }

/-- CONFIG <- c (R245). -/
def setConfig (c : ConfigReg) (s : State) : State := { s with config := c }

/-- The effect of INIT (R222), which reset shares (R290). PKT, CONFIG and the sink log are not changed. -/
def initialise (s : State) : State :=
  { s with trackedPid := s.config.pid
           fsm := .idle
           lastCc := none
           asmBuf := []
           result := ResultReg.zero
           sinkLen := 0
           cmdErr := false
           busErr := false
           tsh := TshBank.zero
           af := AfBank.zero
           pes := PesBank.zero }

/-- A hardware reset, from any state (R290): CONFIG <- 0, then the effect of INIT; PKT is left with no
value, and the observation (sink log and values read) starts anew. The host's program is not the
block's and stays. -/
def hardwareReset (s : State) : State :=
  let s := initialise (setConfig { pid := 0, raw := false } s)
  { s with pkt := [], sinkLog := [], hostReads := [] }

end Sys2Proof.Machine
end

