-- ==== Sys2Proof/Machine/Operands.lean ====
section
/-! DEFINITION. The operands: fields assembled from packet bytes (R62, R81 to R86), and the registers
of the host window with their addresses (R61). Arithmetic is on natural numbers (R12). -/

namespace Sys2Proof.Machine

/-! ### Packet fields -/

/-- W = {P[0], P[1], P[2], P[3]}, big-endian (R81, R110). -/
def tshWord (p : Bytes) : Word :=
  BitVec.ofNat 32 (byteAt p 0 <<< 24 ||| byteAt p 1 <<< 16 ||| byteAt p 2 <<< 8 ||| byteAt p 3)

/-- The 33-bit PCR base from P[6] to P[10] (R84, R134). P[10][6:0] and P[11] are not read (C4). -/
def pcrBaseOf (p : Bytes) : Nat :=
  byteAt p 6 <<< 25 ||| byteAt p 7 <<< 17 ||| byteAt p 8 <<< 9 ||| byteAt p 9 <<< 1 ||| byteAt p 10 >>> 7

/-- TS5(k), the 33-bit timestamp whose five bytes start at P[k] (R86, R162; the corrected shifts of C1). -/
def ts5 (p : Bytes) (k : Nat) : Nat :=
  (byteAt p k &&& 0x0E) <<< 29 ||| byteAt p (k + 1) <<< 22 ||| (byteAt p (k + 2) &&& 0xFE) <<< 14
    ||| byteAt p (k + 3) <<< 7 ||| (byteAt p (k + 4) &&& 0xFE) >>> 1

/-- START_CODE, P[off] to P[off+2] big-endian (R153). -/
def startCodeOf (p : Bytes) (off : Nat) : Nat :=
  byteAt p off <<< 16 ||| byteAt p (off + 1) <<< 8 ||| byteAt p (off + 2)

/-- PACKET_LENGTH, P[off+4] and P[off+5] big-endian (R155). -/
def packetLengthOf (p : Bytes) (off : Nat) : Nat := byteAt p (off + 4) <<< 8 ||| byteAt p (off + 5)

/-! ### The host window -/

/-- Whether an address lies in PKT, 0x000 to 0x0BB (R61). -/
def inPkt (a : Addr) : Bool := a.toNat < Config.pktSize

/-- Whether an address is a multiple of 4 (R65). -/
def aligned (a : Addr) : Bool := a.toNat % 4 == 0

/-- The registers of the host window (R61). -/
inductive Reg where
  | cmd
  | config
  | result
  | status
  | asmLen
  | sinkLen
  | tshWord
  | tshFields
  | afFields
  | pcrBaseLo
  | pcrBaseHi
  | pcrTicksLo
  | pcrTicksHi
  | pesId
  | pesFields
  | pesStatus
  | ptsLo
  | ptsHi
  | dtsLo
  | dtsHi
  deriving DecidableEq, Repr

/-- The register at an offset of the map of R61; none for PKT and for reserved offsets (R68). -/
def regAt (a : Nat) : Option Reg :=
  match a with
  | 0x100 => some .cmd
  | 0x104 => some .config
  | 0x108 => some .result
  | 0x10C => some .status
  | 0x110 => some .asmLen
  | 0x114 => some .sinkLen
  | 0x120 => some .tshWord
  | 0x124 => some .tshFields
  | 0x130 => some .afFields
  | 0x134 => some .pcrBaseLo
  | 0x138 => some .pcrBaseHi
  | 0x13C => some .pcrTicksLo
  | 0x140 => some .pcrTicksHi
  | 0x150 => some .pesId
  | 0x154 => some .pesFields
  | 0x158 => some .pesStatus
  | 0x15C => some .ptsLo
  | 0x160 => some .ptsHi
  | 0x164 => some .dtsLo
  | 0x168 => some .dtsHi
  | _ => none

/-- CONFIG from a written word: data[12:0] and data[16]; the other bits are dropped (R245). -/
def configOf (d : Word) : ConfigReg := { pid := d.extractLsb' 0 13, raw := d.getLsbD 16 }

end Sys2Proof.Machine
end

