-- ==== Sys2Proof/Machine/Flags.lean ====
section
/-! DEFINITION. Every flag computation: the continuity check, the overflow check, the codes of RESULT,
and the 32-bit word each register reads as (R244). -/

namespace Sys2Proof.Machine

/-! ### Conditions the assembler tests -/

/-- ccOk (R190): a counter is recorded and CC = (LASTCC_VAL + 1) mod 16. With none recorded the check
fails (D22). -/
def ccOk (cc : BitVec 4) (last : Option (BitVec 4)) : Bool :=
  match last with
  | none => false
  | some v => cc.toNat == (v.toNat + 1) % 16

/-- Whether an append of n bytes would exceed ASM_CAP (R194, R195, R198). -/
def overflows (n : Nat) (s : State) : Bool := s.asmLen + n > s.asmCap

/-! ### The encodings of RESULT.CODE and RESULT.CAUSE -/

/-- RESULT.CODE (R31). -/
def Code.bits : Code → BitVec 3
  | .none => 0
  | .lost => 1
  | .started => 2
  | .continued => 3
  | .finished => 4

/-- RESULT.CAUSE (R32). -/
def Cause.bits : Cause → BitVec 4
  | .none => 0
  | .truncAf => 1
  | .truncPesMin => 2
  | .truncPesHdr => 3
  | .truncPesTs => 4
  | .invalidStartCode => 5
  | .continuityBroken => 6
  | .notAssembling => 7
  | .bufferOverflow => 8

/-! ### Register words -/

/-- A flag as a one-bit number. -/
def bit (b : Bool) : Nat := if b then 1 else 0

/-- LASTCC_VALID (R26). -/
def State.lastCcValid (s : State) : Bool := s.lastCc.isSome

/-- LASTCC_VAL, which reads 0 while no counter is recorded (R26). -/
def State.lastCcVal (s : State) : BitVec 4 := s.lastCc.getD 0

/-- CONFIG (R23). -/
def ConfigReg.word (c : ConfigReg) : Word := BitVec.ofNat 32 (c.pid.toNat ||| bit c.raw <<< 16)

/-- RESULT (R30). -/
def ResultReg.word (r : ResultReg) : Word :=
  BitVec.ofNat 32 (r.code.bits.toNat ||| r.cause.bits.toNat <<< 4 ||| bit r.unexpectedPid <<< 8
    ||| bit r.sinkWritten <<< 9 ||| r.appended.toNat <<< 16)

/-- STATUS (R33, R244). -/
def State.statusWord (s : State) : Word :=
  BitVec.ofNat 32 (bit (s.fsm == .assembling) ||| bit s.lastCcValid <<< 1 ||| s.lastCcVal.toNat <<< 4
    ||| s.trackedPid.toNat <<< 8 ||| bit s.cmdErr <<< 24 ||| bit s.busErr <<< 25)

/-- TSH_FIELDS (R36). -/
def TshBank.fieldsWord (t : TshBank) : Word :=
  BitVec.ofNat 32 (t.pid.toNat ||| bit t.tei <<< 13 ||| bit t.pusi <<< 14 ||| bit t.prio <<< 15
    ||| t.tsc.toNat <<< 16 ||| t.afc.toNat <<< 18 ||| t.cc.toNat <<< 20 ||| t.sync.toNat <<< 24)

/-- AF_FIELDS (R37). -/
def AfBank.fieldsWord (f : AfBank) : Word :=
  BitVec.ofNat 32 (f.len.toNat ||| f.flags.toNat <<< 8 ||| f.stuff.toNat <<< 16 ||| bit f.valid <<< 24
    ||| bit f.pcrValid <<< 25)

/-- PES_ID (R39). -/
def PesBank.idWord (b : PesBank) : Word := BitVec.ofNat 32 (b.startCode.toNat ||| b.streamId.toNat <<< 24)

/-- PES_FIELDS (R39). -/
def PesBank.fieldsWord (b : PesBank) : Word :=
  BitVec.ofNat 32 (b.packetLength.toNat ||| b.ptsDtsFlags.toNat <<< 16 ||| b.extFlags.toNat <<< 18
    ||| b.hdrDataLen.toNat <<< 24)

/-- PES_STATUS (R40). -/
def PesBank.statusWord (b : PesBank) : Word :=
  BitVec.ofNat 32 (b.hdrTotalLen.toNat ||| bit b.valid <<< 16 ||| bit b.startCodeOk <<< 17
    ||| bit b.ptsValid <<< 18 ||| bit b.dtsValid <<< 19)

/-- The low word of a value wider than 32 bits (R38, R41). -/
def loWord (v : Nat) : Word := BitVec.ofNat 32 v

/-- The bits of a value above bit 31 (R38, R41, R244). -/
def hiWord (v : Nat) : Word := BitVec.ofNat 32 (v >>> 32)

/-- RegValue (R244); CMD reads 0 (R225). -/
def regValue (r : Reg) (s : State) : Word :=
  match r with
  | .cmd => 0
  | .config => s.config.word
  | .result => s.result.word
  | .status => s.statusWord
  | .asmLen => BitVec.ofNat 32 s.asmLen
  | .sinkLen => s.sinkLen
  | .tshWord => s.tsh.word
  | .tshFields => s.tsh.fieldsWord
  | .afFields => s.af.fieldsWord
  | .pcrBaseLo => loWord s.af.pcrBase.toNat
  | .pcrBaseHi => hiWord s.af.pcrBase.toNat
  | .pcrTicksLo => loWord s.af.pcrTicks.toNat
  | .pcrTicksHi => hiWord s.af.pcrTicks.toNat
  | .pesId => s.pes.idWord
  | .pesFields => s.pes.fieldsWord
  | .pesStatus => s.pes.statusWord
  | .ptsLo => loWord s.pes.pts.toNat
  | .ptsHi => hiWord s.pes.pts.toNat
  | .dtsLo => loWord s.pes.dts.toNat
  | .dtsHi => hiWord s.pes.dts.toNat

end Sys2Proof.Machine
end

