-- ==== Sys2Proof/Machine/AdaptationField.lean ====
section
/-! DEFINITION. AdaptationFieldParser: AF_PARSE and the PCR (R130 to R140). -/

namespace Sys2Proof.Machine

/-- What AF_PARSE hands to the assembler: afOk and afConsumed (R130). -/
structure AfSignals where
  ok       : Bool
  consumed : Nat
  deriving DecidableEq, Repr

/-- The bank of a failed parse: only AF_LEN is kept (R130, D16). -/
def afFailedBank (p : Bytes) : AfBank := { AfBank.zero with len := BitVec.ofNat 8 (byteAt p 4) }

/-- The bank of a parse that succeeds (R130). The flag byte is P[5] whatever the length is (R133), and
the PCR is read whenever its flag is set (R134); AF_STUFF by R137. -/
def afParsedBank (p : Bytes) : AfBank :=
  let l := byteAt p 4
  let f := byteAt p 5
  let pcr := f.testBit 4
  { len      := BitVec.ofNat 8 l
    flags    := BitVec.ofNat 8 f
    stuff    := if pcr then 0 else BitVec.ofNat 8 (l - 1)
    valid    := true
    pcrValid := pcr
    pcrBase  := if pcr then BitVec.ofNat 33 (pcrBaseOf p) else 0
    pcrTicks := if pcr then BitVec.ofNat 42 (pcrBaseOf p * 300) else 0 }

/-- The declared length is accepted iff the field lies inside the packet: L <= 183 (R131, C3). -/
def afLengthOk (p : Bytes) : Bool := byteAt p 4 ≤ 183

/-- AF_PARSE (R130): the AF bank. It depends on P[4] to P[10] alone (R140). -/
def afParse (p : Bytes) : AfBank := if afLengthOk p then afParsedBank p else afFailedBank p

/-- afOk and afConsumed of a packet (R130, R136, R180): (true, 0) when there is no adaptation field. -/
def afSignals (hasAf : Bool) (p : Bytes) : AfSignals :=
  if hasAf then
    if afLengthOk p then { ok := true, consumed := byteAt p 4 + 1 } else { ok := false, consumed := 0 }
  else { ok := true, consumed := 0 }

end Sys2Proof.Machine
end

