-- ==== Sys2Proof/Machine/PesHeader.lean ====
section
/-! DEFINITION. PESHeaderParser: PES_PARSE and the timestamps (R150 to R170). -/

namespace Sys2Proof.Machine

/-- What PES_PARSE returns: the bank, and the failure it reports, none for OK (R150). -/
structure PesOutcome where
  bank    : PesBank
  failure : Option Cause
  deriving DecidableEq, Repr

/-- PTS_DTS_FLAGS, the top 2 bits of header byte 7 (R157). -/
def ptsDtsFlagsOf (p : Bytes) (off : Nat) : Nat := byteAt p (off + 7) >>> 6

/-- HDR_TOTAL_LEN, 9 + HDR_DATA_LEN (R159). -/
def hdrTotalLenOf (p : Bytes) (off : Nat) : Nat := 9 + byteAt p (off + 8)

/-- The fixed fields as the parse latches them before its length checks; the valid bits and the
timestamps are still 0 (R151, R153 to R159). Header byte 6 is not decoded (R156). -/
def pesFixedBank (p : Bytes) (off : Nat) : PesBank :=
  { PesBank.zero with
    startCode    := BitVec.ofNat 24 (startCodeOf p off)
    streamId     := BitVec.ofNat 8 (byteAt p (off + 3))
    packetLength := BitVec.ofNat 16 (packetLengthOf p off)
    ptsDtsFlags  := BitVec.ofNat 2 (ptsDtsFlagsOf p off)
    extFlags     := BitVec.ofNat 6 (byteAt p (off + 7) &&& 0x3F)
    hdrDataLen   := BitVec.ofNat 8 (byteAt p (off + 8))
    hdrTotalLen  := BitVec.ofNat 9 (hdrTotalLenOf p off)
    startCodeOk  := startCodeOf p off == 0x000001 }

/-- The bank of a complete parse: the timestamps the flags select (R163 to R166), and PES_VALID (R167). -/
def pesParsedBank (p : Bytes) (off : Nat) : PesBank :=
  let f := ptsDtsFlagsOf p off
  let hasPts := f == 2 || f == 3
  let hasDts := f == 1 || f == 3
  { pesFixedBank p off with
    valid    := true
    ptsValid := hasPts
    dtsValid := hasDts
    pts      := if hasPts then BitVec.ofNat 33 (ts5 p (off + 9)) else 0
    dts      := if f == 1 then BitVec.ofNat 33 (ts5 p (off + 9))
                else if f == 3 then BitVec.ofNat 33 (ts5 p (off + 14)) else 0 }

/-- The bytes from off that the header and the selected timestamps need (R150, R161). -/
def pesNeed (f : Nat) : Nat := 9 + (if f = 0 then 0 else if f = 3 then 10 else 5)

/-- PES_PARSE(off) (R150), the checks in the order of R170. -/
def pesParse (p : Bytes) (off : Nat) : PesOutcome :=
  let avail := Config.pktSize - off
  if avail < 9 then { bank := PesBank.zero, failure := some .truncPesMin }
  else if hdrTotalLenOf p off > avail then { bank := pesFixedBank p off, failure := some .truncPesHdr }
  else if pesNeed (ptsDtsFlagsOf p off) > avail then { bank := pesFixedBank p off, failure := some .truncPesTs }
  else
    { bank := pesParsedBank p off
      failure := if startCodeOf p off = 0x000001 then none else some .invalidStartCode }

end Sys2Proof.Machine
end

