-- ==== Sys2Proof/Machine/TsHeader.lean ====
section
/-! DEFINITION. PacketHeaderParser: TSH_PARSE (R110 to R121). -/

namespace Sys2Proof.Machine

/-- TSH_PARSE (R110): the TSH bank of a packet. It never fails (R118), checks nothing (R119) and reads
only P[0] to P[3] (R117). -/
def tshParse (p : Bytes) : TshBank :=
  { word := tshWord p
    sync := BitVec.ofNat 8 (byteAt p 0)
    tei  := (byteAt p 1).testBit 7
    pusi := (byteAt p 1).testBit 6
    prio := (byteAt p 1).testBit 5
    pid  := BitVec.ofNat 13 ((byteAt p 1 &&& 0x1F) <<< 8 ||| byteAt p 2)
    tsc  := BitVec.ofNat 2 (byteAt p 3 >>> 6)
    afc  := BitVec.ofNat 2 ((byteAt p 3 >>> 4) &&& 0x3)
    cc   := BitVec.ofNat 4 (byteAt p 3 &&& 0x0F) }

/-- HAS_AF of a parsed header: AFC[1] (R110, R116). -/
def TshBank.hasAf (t : TshBank) : Bool := t.afc.getLsbD 1

end Sys2Proof.Machine
end

