-- ==== Sys2Proof/Machine/Assembler.lean ====
section
/-! DEFINITION. PESAssembler: the three packet classes START, CONTINUATION and COMPLETION (R183 to R198). -/

namespace Sys2Proof.Machine

/-- The first packet byte START appends: after the PES header, or at it in RAW mode (R187). -/
def startAppendFrom (raw : Bool) (p : Bytes) (off : Nat) : Nat := if raw then off else off + hdrTotalLenOf p off

/-- START after its unit is open, when the adaptation field is sound: the PES header at `off`, the first
append, the baseline and the result (R186 to R189). -/
def startParsed (h : TsHeader) (p : Bytes) (off : Nat) (s : State) : State :=
  let o := pesParse p off
  let s := setPes o.bank s
  match o.failure with
  | some c => lose c s
  | none => finish .started .none (recordCc h.cc (bufAppend p (startAppendFrom s.config.raw p off) Config.pktSize s))

/-- START (R183 to R189): re-track, open the unit, then the adaptation-field failure (R185) or the PES
header. A start packet's own CC is not checked (R188). -/
def startStep (h : TsHeader) (p : Bytes) (s : State) : State :=
  let s := setFsm .assembling (bufClear (retrack h.pid s))
  let af := afSignals h.hasAf p
  if af.ok then startParsed h p (Config.tsHdrLen + af.consumed) s else lose .truncAf s

/-- The checks every non-start packet takes before its own rule, in the order of R270: CC_CHECK with
its update of LASTCC (R190 to R192), then NOT_ASSEMBLING (R193). -/
def nonStart (cc : BitVec 4) (accepted : State → State) (s : State) : State :=
  let ok := ccOk cc s.lastCc
  let s := recordCc cc s
  if !ok then lose .continuityBroken s
  else if s.fsm ≠ .assembling then lose .notAssembling s
  else accepted s

/-- CONTINUE of an accepted packet (R194), or BufferOverflow (R198). -/
def continueAccepted (p : Bytes) (s : State) : State :=
  if overflows (Config.pktSize - Config.tsHdrLen) s then lose .bufferOverflow s
  else finish .continued .none (bufAppend p Config.tsHdrLen Config.pktSize s)

/-- CONTINUATION (R190 to R194, R198). The packet's PID is not checked (R201). -/
def continuationStep (h : TsHeader) (p : Bytes) (s : State) : State := nonStart h.cc (continueAccepted p) s

/-- COMPLETE of an accepted packet whose payload starts at `lo` (R195, R196), or BufferOverflow (R198). -/
def completeFrom (p : Bytes) (lo : Nat) (s : State) : State :=
  if overflows (Config.pktSize - lo) s then lose .bufferOverflow s
  else finish .finished .none (setFsm .idle (bufClear (sinkWrite (bufAppend p lo Config.pktSize s))))

/-- COMPLETE of an accepted packet: its adaptation-field failure first (R197). -/
def completeAccepted (h : TsHeader) (p : Bytes) (s : State) : State :=
  let af := afSignals h.hasAf p
  if af.ok then completeFrom p (Config.tsHdrLen + af.consumed) s else lose .truncAf s

/-- COMPLETION (R190 to R193, R195 to R198). The packet's PID is not checked (R201). -/
def completionStep (h : TsHeader) (p : Bytes) (s : State) : State := nonStart h.cc (completeAccepted h p) s

/-- A packet class acts on the packet in PKT, whose every byte must hold a value (R46, R180). -/
def onPacket (f : Bytes → State → State) (s : State) : Host.Outcome State Fault Refusal :=
  match snapshot s with
  | some p => .next (f p s)
  | none => .fault .unwrittenPacketByte

/-- The START class: the dispatched step of ABSORB, for the packet in PKT and the header operands h
(log entry 7). -/
def execStart (h : TsHeader) (s : State) : Host.Outcome State Fault Refusal := onPacket (startStep h) s

/-- The CONTINUATION class (log entry 7). -/
def execContinuation (h : TsHeader) (s : State) : Host.Outcome State Fault Refusal := onPacket (continuationStep h) s

/-- The COMPLETION class (log entry 7). -/
def execCompletion (h : TsHeader) (s : State) : Host.Outcome State Fault Refusal := onPacket (completionStep h) s

end Sys2Proof.Machine
end

