-- ==== Sys2Proof/Machine/Commands.lean ====
section
/-! DEFINITION. The commands NOP, INIT and ABSORB, and a reserved command word (R220 to R225). -/

namespace Sys2Proof.Machine

/-- NOP: "(nothing)" (R221). -/
def execNop (s : State) : Host.Outcome State Fault Refusal := .next s

/-- INIT (R222). -/
def execInit (s : State) : Host.Outcome State Fault Refusal := .next (initialise s)

/-- What ABSORB does before it dispatches (R180): the per-packet RESULT flags to 0 (R182), the TSH bank,
and the AF bank when there is an adaptation field (R138). -/
def absorbFront (p : Bytes) (s : State) : State :=
  let t := tshParse p
  { s with result := { s.result with unexpectedPid := false, sinkWritten := false, appended := 0 }
           tsh := t
           af := if t.hasAf then afParse p else s.af }

/-- The dispatch of ABSORB on the packet class of W (R89, R181). -/
def absorbDispatch (p : Bytes) (s : State) : State :=
  let w := tshWord p
  match packetClass w with
  | .start => startStep (headerOf w) p s
  | .continuation => continuationStep (headerOf w) p s
  | .completion => completionStep (headerOf w) p s

/-- ABSORB of a packet, one atomic step (R180). -/
def absorbStep (p : Bytes) (s : State) : State := absorbDispatch p (absorbFront p s)

/-- ABSORB (R223): the packet is PKT as it stands (R72). -/
def execAbsorb (s : State) : Host.Outcome State Fault Refusal := onPacket absorbStep s

/-- A WR32 to CMD executes the command its data word encodes (R220); a reserved word sets CMD_ERR and
nothing else (R224). -/
def runCommand (d : Word) (s : State) : Host.Outcome State Fault Refusal :=
  match commandOf d with
  | some .nop => execNop s
  | some .init => execInit s
  | some .absorb => execAbsorb s
  | none => .next (raiseCommandError s)

end Sys2Proof.Machine
end

