-- ==== Sys2Proof/Machine/Bus.lean ====
section
/-! DEFINITION. The bus transactions RD8, RD32, WR8 and WR32 (R240 to R246). -/

namespace Sys2Proof.Machine

/-- RD8 (R241): outside PKT a BusError, and the read returns 0. -/
def execRd8 (a : Addr) (s : State) : Host.Outcome State Fault Refusal :=
  if inPkt a then
    match s.pkt.read a.toNat with
    | some b => .next (returnRead (.byte b) s)
    | none => .fault .unwrittenPacketByte
  else .next (returnRead (.byte 0) (raiseBusError s))

/-- An aligned 32-bit read outside PKT: a register, or 0 at a reserved address (R240, R68). -/
def registerRead (a : Addr) (s : State) : Word :=
  match regAt a.toNat with
  | some r => regValue r s
  | none => 0

/-- RD32 (R240): misaligned a BusError, and the read returns 0; four PKT bytes; or a register. -/
def execRd32 (a : Addr) (s : State) : Host.Outcome State Fault Refusal :=
  if aligned a then
    if inPkt a then
      match s.pkt.readBytes a.toNat 4 with
      | some [b0, b1, b2, b3] => .next (returnRead (.word (wordLE b0 b1 b2 b3)) s)
      | _ => .fault .unwrittenPacketByte
    else .next (returnRead (.word (registerRead a s)) s)
  else .next (returnRead (.word 0) (raiseBusError s))

/-- WR8 (R243): outside PKT a BusError and nothing else. -/
def execWr8 (a : Addr) (d : Byte) (s : State) : Host.Outcome State Fault Refusal :=
  if inPkt a then .next (writeByte a.toNat d s) else .next (raiseBusError s)

/-- An aligned 32-bit write outside PKT: CMD runs a command (R220), CONFIG is stored (R245), and every
other register and every reserved address ignores it (R246, R68). -/
def registerWrite (a : Addr) (d : Word) (s : State) : Host.Outcome State Fault Refusal :=
  match regAt a.toNat with
  | some .cmd => runCommand d s
  | some .config => .next (setConfig (configOf d) s)
  | _ => .next s

/-- WR32 (R242): misaligned a BusError and nothing else, so no command runs (R271). -/
def execWr32 (a : Addr) (d : Word) (s : State) : Host.Outcome State Fault Refusal :=
  if aligned a then
    if inPkt a then .next (writeWord a.toNat d s) else registerWrite a d s
  else .next (raiseBusError s)

end Sys2Proof.Machine
end

