-- ==== Sys2Proof/Machine/Dispatch.lean ====
section
/-! DEFINITION. One arm per instruction. -/

namespace Sys2Proof.Machine

-- The meaning of each instruction of the opcode table.
def exec (i : Instr) (s : State) : Host.Outcome State Fault Refusal :=
  match i with
  | .nop => Sys2Proof.Machine.execNop s
  | .init => Sys2Proof.Machine.execInit s
  | .absorb => Sys2Proof.Machine.execAbsorb s
  | .start h => Sys2Proof.Machine.execStart h s
  | .continuation h => Sys2Proof.Machine.execContinuation h s
  | .completion h => Sys2Proof.Machine.execCompletion h s
  | .rd8 a => Sys2Proof.Machine.execRd8 a s
  | .rd32 a => Sys2Proof.Machine.execRd32 a s
  | .wr8 a d => Sys2Proof.Machine.execWr8 a d s
  | .wr32 a d => Sys2Proof.Machine.execWr32 a d s

end Sys2Proof.Machine
end

