-- ==== Sys2Proof/Machine/Step.lean ====
section
/-! DEFINITION. One step: the host's next transaction, or nothing when it has none. -/

namespace Sys2Proof.Machine

/-- The host issues its next transaction and the block executes it, as one atomic step (R66, R69); a
line that spells no transaction is refused (R90). With no transaction left the block "does nothing
between commands and all its state persists" (R280). Log entry 2. -/
def step (s : State) : Host.Outcome State Fault Refusal :=
  match s.hostProgram with
  | [] => .next s
  | l :: rest =>
    match decodeLine l with
    | .ok i => exec i { s with hostProgram := rest }
    | .error e => .refused (.illFormedListing e)

/-- The listing line that writes a word to CMD (R96). -/
def commandLine (d : Word) : BusLine := ⟨busHeader 0xC000#16 0x100#12, some d⟩

/-- The host issues this line next. -/
def State.pushLine (l : BusLine) (s : State) : State := { s with hostProgram := l :: s.hostProgram }

/-- The state in which an encoded instruction is the next to run (log entry 3): a bus line is the
host's next transaction; a command word is the data of the host's next write to CMD; a header word W
stands in P[0..3] of a packet whose other bytes are 0, and the host's next transaction is the ABSORB
that fetches and dispatches it. -/
def State.withEncoded (s : State) : Encoded → State
  | .bus l => s.pushLine l
  | .cmd d => s.pushLine (commandLine d)
  | .tsh w =>
    State.pushLine (commandLine 0x00000002#32)
      { s with pkt := Memory.ofBytes 0 (bytesBE w ++ List.replicate (Config.pktSize - Config.tsHdrLen) 0) }

/-- The state whose very next step runs the table row's instruction. -/
def State.withFetchWord (s : State) (nbits w : Nat) : State :=
  match tableEncoded nbits w with
  | some e => s.withEncoded e
  | none => s

end Sys2Proof.Machine
end

