-- ==== Sys2Proof/Machine/HostProgram.lean ====
section
/-! DEFINITION. The host's program: the pseudo-instructions and their expansions (R96), the packet
literal (R97), the text of a program line (R95), and how a program is given to the host. What R95 to
R97 leave open about the text is log entry 16. -/

namespace Sys2Proof.Machine

/-! ### Programs of transactions -/

/-- The listing line of an instruction; none for the instructions that are no transaction (R90, R95). -/
def lineOf (i : Instr) : Option BusLine :=
  match encode i with
  | .bus l => some l
  | .cmd _ => none
  | .tsh _ => none

/-- The host is given a straight-line program to issue (R95), in order, after what it has still to issue. -/
def State.load (prog : List Instr) (s : State) : State :=
  { s with hostProgram := s.hostProgram ++ prog.filterMap lineOf }

/-- A write of a command word to CMD (R96). -/
def cmdWrite (d : Word) : Instr := .wr32 0x100#12 d

/-- The word that holds P[4j] to P[4j+3] on the bus (R63, R96). -/
def packetWord (p : Bytes) (j : Nat) : Word :=
  wordLE (p.getD (4 * j) 0) (p.getD (4 * j + 1) 0) (p.getD (4 * j + 2) 0) (p.getD (4 * j + 3) 0)

/-- LDPKT: 47 word writes, in increasing offset (R96). -/
def ldpkt (p : Bytes) : List Instr :=
  (List.range 47).map fun j => .wr32 (BitVec.ofNat 12 (4 * j)) (packetWord p j)

/-- FEED: LDPKT, then CMD_ABSORB (R96). -/
def feed (p : Bytes) : List Instr := ldpkt p ++ [cmdWrite 0x00000002#32]

/-- SETCFG pid, raw (R96). -/
def setcfg (pid raw : Nat) : Instr := .wr32 0x104#12 (BitVec.ofNat 32 (raw <<< 16 ||| pid))

/-! ### Packet literals -/

/-- A packet literal: bytes and `XX*n` runs, and the `fill XX` it may end in (R97). -/
structure PacketLiteral where
  items : List (Byte × Nat)
  fill  : Option Byte
  deriving DecidableEq, Repr

/-- The bytes a literal lists before its fill. -/
def literalBody (items : List (Byte × Nat)) : Bytes := items.flatMap fun e => List.replicate e.2 e.1

/-- The packet a literal spells; none when it "is not exactly 188 bytes after filling" (R97). -/
def PacketLiteral.packet (l : PacketLiteral) : Option Bytes :=
  let body := literalBody l.items
  let bytes := match l.fill with
    | some b => body ++ List.replicate (Config.pktSize - body.length) b
    | none => body
  if bytes.length = Config.pktSize then some bytes else none

/-! ### Program lines -/

/-- Why a program line is refused: it is ill-formed (R95 to R97; 93_implementation_defined.md item 19). -/
inductive HostTextError where
  | unknownMnemonic
  | badOperand
  | badPacket
  | badConfig
  deriving DecidableEq, Repr

/-- A line of a host program: a transaction, with the value a read is said to return, or a
pseudo-instruction (R95, R96). -/
inductive HostLine where
  | transaction (i : Instr) (returns : Option Nat)
  | cmdNop
  | cmdInit
  | cmdAbsorb
  | setcfg (pid raw : Nat)
  | ldpkt (l : PacketLiteral)
  | feed (l : PacketLiteral)
  deriving DecidableEq, Repr

/-- The transactions a line stands for (R96), or its refusal. -/
def HostLine.expand : HostLine → Except HostTextError (List Instr)
  | .transaction i _ => .ok [i]
  | .cmdNop => .ok [cmdWrite 0x00000000#32]
  | .cmdInit => .ok [cmdWrite 0x00000001#32]
  | .cmdAbsorb => .ok [cmdWrite 0x00000002#32]
  | .setcfg pid raw =>
    if pid ≤ 8191 ∧ raw ≤ 1 then .ok [Sys2Proof.Machine.setcfg pid raw] else .error .badConfig
  | .ldpkt l =>
    match l.packet with
    | some p => .ok (Sys2Proof.Machine.ldpkt p)
    | none => .error .badPacket
  | .feed l =>
    match l.packet with
    | some p => .ok (Sys2Proof.Machine.feed p)
    | none => .error .badPacket

/-- The transactions of a program: its lines' expansions in order; the first ill-formed line refuses it. -/
def expandProgram : List HostLine → Except HostTextError (List Instr)
  | [] => .ok []
  | l :: r =>
    match l.expand, expandProgram r with
    | .ok is, .ok rest => .ok (is ++ rest)
    | .error e, _ => .error e
    | _, .error e => .error e

/-- The value of a host read as a number. -/
def HostRead.value : HostRead → Nat
  | .byte v => v.toNat
  | .word v => v.toNat

/-- The values the `-> value` notes of a program state, one entry for each read line in order (R95). -/
def statedReads : List HostLine → List (Option Nat)
  | [] => []
  | .transaction (.rd8 _) v :: r => v :: statedReads r
  | .transaction (.rd32 _) v :: r => v :: statedReads r
  | _ :: r => statedReads r

/-- Whether the values read are those the notes state. -/
def readsAgree : List (Option Nat) → List HostRead → Bool
  | [], [] => true
  | none :: n, _ :: r => readsAgree n r
  | some v :: n, x :: r => v == x.value && readsAgree n r
  | _, _ => false

/-! ### Program text -/

/-- A character that only separates. -/
def isBlank (c : Char) : Bool := c == ' ' || c == '\t' || c == '\r' || c == '\n'

/-- The text before a comment, in capitals: ";" starts a comment and mnemonics are case-insensitive (R95).
DESIGN CHOICE: the whole line is case-insensitive, so register names, `0X`, hexadecimal digits and `FILL`
may stand in either case (log entry 16). -/
def lineText (cs : List Char) : List Char := (cs.takeWhile (· ≠ ';')).map Char.toUpper

/-- A finished word, if it is not empty, before the words that follow. -/
def endWord (cur : List Char) (rest : List (List Char)) : List (List Char) :=
  if cur.isEmpty then rest else cur :: rest

/-- The words of a line; a comma is a word of its own. -/
def wordsFrom (cur : List Char) : List Char → List (List Char)
  | [] => endWord cur []
  | c :: r =>
    if isBlank c then endWord cur (wordsFrom [] r)
    else if c == ',' then endWord cur ([','] :: wordsFrom [] r)
    else wordsFrom (cur ++ [c]) r

/-- The value of a digit in a base. -/
def digitValue (base : Nat) (c : Char) : Option Nat :=
  let n := c.toNat
  let v := if 48 ≤ n ∧ n ≤ 57 then n - 48 else if 65 ≤ n ∧ n ≤ 70 then n - 55 else base
  if v < base then some v else none

/-- The value of a digit string, most significant digit first. -/
def digitsFrom (base acc : Nat) : List Char → Option Nat
  | [] => some acc
  | c :: r =>
    match digitValue base c with
    | some v => digitsFrom base (acc * base + v) r
    | none => none

/-- A nonempty digit string in a base. -/
def digits (base : Nat) (cs : List Char) : Option Nat := if cs.isEmpty then none else digitsFrom base 0 cs

/-- A number, decimal or `0x` hexadecimal (R95). -/
def number : List Char → Option Nat
  | '0' :: 'X' :: r => digits 16 r
  | cs => digits 10 cs

/-- The names of R61 that may stand for their offsets (R95). DESIGN CHOICE: R61 gives PKT a range and not
one offset; the name stands for the first address of the range, 0x000 (log entry 16). -/
def registerNames : List (String × Nat) :=
  [("PKT", 0x000), ("CMD", 0x100), ("CONFIG", 0x104), ("RESULT", 0x108), ("STATUS", 0x10C), ("ASM_LEN", 0x110),
   ("SINK_LEN", 0x114), ("TSH_WORD", 0x120), ("TSH_FIELDS", 0x124), ("AF_FIELDS", 0x130)]
  ++ [("PCR_BASE_LO", 0x134), ("PCR_BASE_HI", 0x138), ("PCR_TICKS_LO", 0x13C), ("PCR_TICKS_HI", 0x140),
   ("PES_ID", 0x150), ("PES_FIELDS", 0x154), ("PES_STATUS", 0x158), ("PTS_LO", 0x15C), ("PTS_HI", 0x160),
   ("DTS_LO", 0x164), ("DTS_HI", 0x168)]

/-- An address operand: a register name or a number below 2^12. -/
def addressOf (w : List Char) : Option Addr :=
  match registerNames.find? fun e => e.1.toList == w with
  | some e => some (BitVec.ofNat 12 e.2)
  | none =>
    match number w with
    | some n => if n < 4096 then some (BitVec.ofNat 12 n) else none
    | none => none

/-- A data operand of a given width. -/
def dataOf (width : Nat) (w : List Char) : Option (BitVec width) :=
  match number w with
  | some n => if n < 2 ^ width then some (BitVec.ofNat width n) else none
  | none => none

/-- A byte of a packet literal: two hexadecimal digits. -/
def literalByte (w : List Char) : Option Byte :=
  if w.length = 2 then (digits 16 w).map (BitVec.ofNat 8) else none

/-- A byte or a run `XX*n` of a packet literal (R97). -/
def literalItem (w : List Char) : Option (Byte × Nat) :=
  match w with
  | a :: b :: '*' :: n =>
    match literalByte [a, b], digits 10 n with
    | some x, some k => some (x, k)
    | _, _ => none
  | _ => (literalByte w).map fun x => (x, 1)

/-- A packet literal from its words (R97). -/
def literalOf : List (List Char) → Option PacketLiteral
  | [] => some { items := [], fill := none }
  | ['F', 'I', 'L', 'L'] :: [w] => (literalByte w).map fun b => { items := [], fill := some b }
  | w :: r =>
    match literalItem w, literalOf r with
    | some e, some l => some { l with items := e :: l.items }
    | _, _ => none

/-- The `-> value` note of a read line, or its absence (R95). -/
def returnsOf : List (List Char) → Option (Option Nat)
  | [] => some none
  | [['-', '>'], v] => (number v).map some
  | _ => none

/-- A read line from its operand words. -/
def readLine (mk : Addr → Instr) : List (List Char) → Except HostTextError HostLine
  | a :: note =>
    match addressOf a, returnsOf note with
    | some a, some v => .ok (.transaction (mk a) v)
    | _, _ => .error .badOperand
  | [] => .error .badOperand

/-- A write line from its operand words. -/
def writeLine (width : Nat) (mk : Addr → BitVec width → Instr) : List (List Char) → Except HostTextError HostLine
  | [a, [','], d] =>
    match addressOf a, dataOf width d with
    | some a, some d => .ok (.transaction (mk a d) none)
    | _, _ => .error .badOperand
  | _ => .error .badOperand

/-- A SETCFG line from its operand words. -/
def setcfgLine : List (List Char) → Except HostTextError HostLine
  | [p, [','], r] =>
    match number p, number r with
    | some p, some r => .ok (.setcfg p r)
    | _, _ => .error .badOperand
  | _ => .error .badOperand

/-- A line that takes a packet literal; "|" in it "has no meaning" (R97). -/
def packetLine (mk : PacketLiteral → HostLine) (cs : List Char) : Except HostTextError HostLine :=
  match literalOf ((wordsFrom [] (cs.map fun c => if c == '|' then ' ' else c)).drop 1) with
  | some l => .ok (mk l)
  | none => .error .badPacket

/-- A line that takes no operand. -/
def bareLine (l : HostLine) : List (List Char) → Except HostTextError HostLine
  | [] => .ok l
  | _ => .error .badOperand

/-- One line of program text (R95 to R97): nothing for an empty line or a comment. -/
def parseLine (text : List Char) : Except HostTextError (Option HostLine) :=
  let cs := lineText text
  match wordsFrom [] cs with
  | [] => .ok none
  | m :: ops =>
    let line : Except HostTextError HostLine :=
      if m == "RD8".toList then readLine .rd8 ops
      else if m == "RD32".toList then readLine .rd32 ops
      else if m == "WR8".toList then writeLine 8 .wr8 ops
      else if m == "WR32".toList then writeLine 32 .wr32 ops
      else if m == "CMD_NOP".toList then bareLine .cmdNop ops
      else if m == "CMD_INIT".toList then bareLine .cmdInit ops
      else if m == "CMD_ABSORB".toList then bareLine .cmdAbsorb ops
      else if m == "SETCFG".toList then setcfgLine ops
      else if m == "LDPKT".toList then packetLine .ldpkt cs
      else if m == "FEED".toList then packetLine .feed cs
      else .error .unknownMnemonic
    match line with
    | .ok l => .ok (some l)
    | .error e => .error e

end Sys2Proof.Machine
end

