-- ==== Sys2Proof/Safety.lean ====
section
/-! DEFINITION. What counts as a sound state and as a successful run, in the terms claims use. -/

namespace Sys2Proof.Machine

/-- TSH_FIELDS says what TSH_WORD says, field by field (R36, R81). -/
def TshBank.agrees (t : TshBank) : Prop :=
  t.sync = t.word.extractLsb' 24 8 ∧ t.tei = t.word.getLsbD 23 ∧ t.pusi = t.word.getLsbD 22
    ∧ t.prio = t.word.getLsbD 21 ∧ t.pid = t.word.extractLsb' 8 13 ∧ t.tsc = t.word.extractLsb' 6 2
    ∧ t.afc = t.word.extractLsb' 4 2 ∧ t.cc = t.word.extractLsb' 0 4

/-- The AF bank is one that AF_PARSE, INIT or reset leaves (R130, R135, R137): the ticks are 300 times
the base; without a PCR both are 0; with one AF_STUFF is 0 and the parse succeeded; after a failed
parse nothing but AF_LEN is kept. -/
def AfBank.sound (f : AfBank) : Prop :=
  f.pcrTicks.toNat = f.pcrBase.toNat * 300
    ∧ (f.pcrValid = false → f.pcrBase = 0)
    ∧ (f.pcrValid = true → f.stuff = 0 ∧ f.valid = true)
    ∧ (f.valid = true → f.pcrValid = f.flags.getLsbD 4 ∧ f.len.toNat ≤ 183 ∧ f.stuff.toNat ≤ 182)
    ∧ (f.valid = false → f.flags = 0 ∧ f.stuff = 0)

/-- The PES bank is one that PES_PARSE, INIT or reset leaves (R40, R41, R151, R159, R163 to R166):
all 0, or HDR_TOTAL_LEN = 9 + HDR_DATA_LEN; START_CODE_OK iff START_CODE = 1; a timestamp is 0 unless
its valid bit is set, and a complete parse sets the valid bits its flags select. -/
def PesBank.sound (b : PesBank) : Prop :=
  (b = PesBank.zero ∨ b.hdrTotalLen.toNat = 9 + b.hdrDataLen.toNat)
    ∧ (b.startCodeOk = true ↔ b.startCode = 1)
    ∧ (b.ptsValid = false → b.pts = 0)
    ∧ (b.dtsValid = false → b.dts = 0)
    ∧ (b.ptsValid = true ↔ b.valid = true ∧ (b.ptsDtsFlags = 2 ∨ b.ptsDtsFlags = 3))
    ∧ (b.dtsValid = true ↔ b.valid = true ∧ (b.ptsDtsFlags = 1 ∨ b.ptsDtsFlags = 3))

/-- RESULT is one that ABSORB, INIT or reset leaves (R30, R32, R196): a cause exactly with LOST, at
most 184 bytes appended, SINK_WRITTEN exactly with FINISHED. -/
def ResultReg.sound (r : ResultReg) : Prop :=
  (r.cause = .none ↔ r.code ≠ .lost)
    ∧ r.appended.toNat ≤ 184
    ∧ (r.sinkWritten = true ↔ r.code = .finished)

/-- The invariant of the block: every state of a run from reset meets it. -/
structure State.Inv (s : State) : Prop where
  /-- PKT keeps its canonical form. -/
  pktWf : s.pkt.wf = true
  /-- ASM_CAP is a value R8 allows. -/
  capBounds : Config.asmCapMin ≤ s.asmCap ∧ s.asmCap ≤ Config.asmCapMax
  /-- 0 <= ASM_LEN <= ASM_CAP (R28). -/
  bufFits : s.asmBuf.length ≤ s.asmCap
  /-- fsm = IDLE implies ASM_LEN = 0 (R29). -/
  idleEmpty : s.fsm = .idle → s.asmBuf = []
  /-- A unit is open only under a recorded counter (R188, R192). -/
  openHasCc : s.fsm = .assembling → s.lastCc ≠ none
  /-- A unit is open exactly when the last ABSORB started or continued one (R203, R206). -/
  openIffResult : s.fsm = .assembling ↔ s.result.code = .started ∨ s.result.code = .continued
  resultSound : s.result.sound
  tshAgrees : s.tsh.agrees
  afSound : s.af.sound
  pesSound : s.pes.sound
  /-- No unit is longer than the buffer it came from (R28, R196). -/
  unitsFit : ∀ u ∈ s.sinkLog, u.length ≤ s.asmCap
  /-- SINK_LEN is 0 or the length of the most recent unit (R35, R222). -/
  sinkLenLast : s.sinkLen = 0 ∨ ∃ u, s.sinkLog.getLast? = some u ∧ s.sinkLen.toNat = u.length

/-- The observation of a run (R19): the sink log together with the values the host read. -/
structure Observation where
  units : List Bytes
  reads : List HostRead
  deriving DecidableEq, Repr

/-- What a state shows of the run that led to it (R19). -/
def State.observation (s : State) : Observation := { units := s.sinkLog, reads := s.hostReads }

/-- A step that neither faults nor is refused. -/
def isNext (o : Host.Outcome State Fault Refusal) : Bool :=
  match o with
  | .next _ => true
  | .fault _ => false
  | .refused _ => false

/-- A run of k transactions that ends successfully in `t`: no fault and no refusal on the way (R19, R282). -/
def runsTo (k : Nat) (s t : State) : Prop :=
  match k with
  | 0 => s = t
  | k + 1 => ∃ m, step s = .next m ∧ runsTo k m t

end Sys2Proof.Machine
end

