-- ==== Sys2Proof/Certificates/Slice0/Obligations.lean ====
section
/-! DEFINITION. The statements for the provers. The names under Sys2Proof.Spec say in the spec's own
terms (bytes joined most significant first, mod 16, the rows of R206) what the machine's definitions
compute on natural numbers; nothing in the machine uses them. -/

namespace Sys2Proof.Spec

open Sys2Proof.Machine

/-! ### A packet in the spec's terms -/

/-- P[k] (R13). -/
def byte (p : Bytes) (k : Nat) : Byte := p.getD k 0

/-- PUSI, P[1][6] (R81). -/
def pusi (p : Bytes) : Bool := (byte p 1).getLsbD 6

/-- The operand fields of the header, by the "packet bits" column of R81. -/
def header (p : Bytes) : TsHeader :=
  { sync := byte p 0
    tei  := (byte p 1).getLsbD 7
    prio := (byte p 1).getLsbD 5
    pid  := (byte p 1).extractLsb' 0 5 ++ byte p 2
    tsc  := (byte p 3).extractLsb' 6 2
    afc  := (byte p 3).extractLsb' 4 2
    cc   := (byte p 3).extractLsb' 0 4 }

/-- AF_LEN, P[4] (R83). -/
def afLen (p : Bytes) : Nat := (byte p 4).toNat

/-- The adaptation-field parse of a packet with header h does not fail (R131). -/
def afOk (h : TsHeader) (p : Bytes) : Bool := !h.hasAf || afLen p ≤ 183

/-- 4 + afConsumed (R136, R186): 4 with no adaptation field, 5 + AF_LEN with one. -/
def payloadAt (h : TsHeader) (p : Bytes) : Nat := if h.hasAf then 5 + afLen p else 4

/-- The 33-bit PCR base, base[32:25] = P[6] down to base[0] = P[10][7] (R84). -/
def pcrBase (p : Bytes) : BitVec 33 :=
  byte p 6 ++ byte p 7 ++ byte p 8 ++ byte p 9 ++ (byte p 10).extractLsb' 7 1

/-- The timestamp at P[k]: b0[3:1], b1, b2[7:1], b3, b4[7:1] (R86). -/
def timestamp (p : Bytes) (k : Nat) : BitVec 33 :=
  (byte p k).extractLsb' 1 3 ++ byte p (k + 1) ++ (byte p (k + 2)).extractLsb' 1 7 ++ byte p (k + 3)
    ++ (byte p (k + 4)).extractLsb' 1 7

/-- START_CODE at off (R153). -/
def startCode (p : Bytes) (off : Nat) : BitVec 24 := byte p off ++ byte p (off + 1) ++ byte p (off + 2)

/-- PTS_DTS_FLAGS at off (R157). -/
def ptsDtsFlags (p : Bytes) (off : Nat) : BitVec 2 := (byte p (off + 7)).extractLsb' 6 2

/-- HDR_TOTAL_LEN at off (R159). -/
def headerLength (p : Bytes) (off : Nat) : Nat := 9 + (byte p (off + 8)).toNat

/-- The bytes the selected timestamps reach to, from off (R161). -/
def timestampReach (p : Bytes) (off : Nat) : Nat :=
  if ptsDtsFlags p off = 0#2 then 9 else if ptsDtsFlags p off = 3#2 then 19 else 14

/-- The status of PES_PARSE(off) as a cause, none for OK (R152, R160, R161, R168, R170). -/
def pesStatus (p : Bytes) (off : Nat) : Cause :=
  if off > 179 then .truncPesMin
  else if off + headerLength p off > 188 then .truncPesHdr
  else if off + timestampReach p off > 188 then .truncPesTs
  else if startCode p off ≠ 0x000001#24 then .invalidStartCode
  else .none

/-- The PES bank after PES_PARSE(off) (R151, R153 to R167). -/
def pesBank (p : Bytes) (off : Nat) : PesBank :=
  let status := pesStatus p off
  let f := ptsDtsFlags p off
  let complete := status = .none ∨ status = .invalidStartCode
  if status = .truncPesMin then PesBank.zero
  else
    { startCode := startCode p off
      streamId := byte p (off + 3)
      packetLength := byte p (off + 4) ++ byte p (off + 5)
      ptsDtsFlags := f
      extFlags := (byte p (off + 7)).extractLsb' 0 6
      hdrDataLen := byte p (off + 8)
      hdrTotalLen := (byte p (off + 8)).setWidth 9 + 9
      valid := complete
      startCodeOk := startCode p off = 0x000001#24
      ptsValid := complete ∧ (f = 2#2 ∨ f = 3#2)
      dtsValid := complete ∧ (f = 1#2 ∨ f = 3#2)
      pts := if complete ∧ (f = 2#2 ∨ f = 3#2) then timestamp p (off + 9) else 0
      dts := if complete ∧ f = 1#2 then timestamp p (off + 9)
             else if complete ∧ f = 3#2 then timestamp p (off + 14) else 0 }

/-! ### The transition table (R206) -/

/-- One row of R206: RESULT.CODE and CAUSE, fsm, LASTCC and ASMBUF after, and the units written. -/
structure Row where
  code   : Code
  cause  : Cause
  fsm    : Fsm
  lastCc : Option (BitVec 4)
  buf    : Bytes
  units  : List Bytes

/-- A state took a row from another. -/
def Row.holds (r : Row) (s t : State) : Prop :=
  t.result.code = r.code ∧ t.result.cause = r.cause ∧ t.fsm = r.fsm ∧ t.lastCc = r.lastCc
    ∧ t.asmBuf = r.buf ∧ t.sinkLog = s.sinkLog ++ r.units

/-- A LOST row: IDLE, cleared, nothing written. -/
def lostRow (cause : Cause) (lastCc : Option (BitVec 4)) : Row :=
  { code := .lost, cause := cause, fsm := .idle, lastCc := lastCc, buf := [], units := [] }

/-- The first byte a start appends (R187). -/
def startTailAt (h : TsHeader) (p : Bytes) (raw : Bool) : Nat :=
  if raw then payloadAt h p else payloadAt h p + headerLength p (payloadAt h p)

/-- The START rows of R206, in order. -/
def startRow (h : TsHeader) (p : Bytes) (s : State) : Row :=
  if afOk h p = false then lostRow .truncAf s.lastCc
  else if pesStatus p (payloadAt h p) ≠ .none then lostRow (pesStatus p (payloadAt h p)) s.lastCc
  else
    { code := .started, cause := .none, fsm := .assembling, lastCc := some h.cc
      buf := p.drop (startTailAt h p s.config.raw), units := [] }

/-- The counter of the packet is the one after the recorded one, modulo 16 (R190). -/
def inSequence (cc : BitVec 4) (last : Option (BitVec 4)) : Bool := last.any fun v => cc = v + 1

/-- The non-start rows of R206, in order; the COMPLETION rows are those with HAS_AF. -/
def nonStartRow (h : TsHeader) (p : Bytes) (s : State) : Row :=
  if inSequence h.cc s.lastCc = false then lostRow .continuityBroken (some h.cc)
  else if s.fsm = .idle then lostRow .notAssembling (some h.cc)
  else if afOk h p = false then lostRow .truncAf (some h.cc)
  else if s.asmBuf.length + (188 - payloadAt h p) > s.asmCap then lostRow .bufferOverflow (some h.cc)
  else if h.hasAf = false then
    { code := .continued, cause := .none, fsm := .assembling, lastCc := some h.cc
      buf := s.asmBuf ++ p.drop 4, units := [] }
  else
    { code := .finished, cause := .none, fsm := .idle, lastCc := some h.cc
      buf := [], units := [s.asmBuf ++ p.drop (payloadAt h p)] }

/-- The row of R206 a packet takes. -/
def row (p : Bytes) (s : State) : Row :=
  if pusi p then startRow (header p) p s else nonStartRow (header p) p s

/-- RESULT.APPENDED of a packet (R187, R194, R195): the bytes of the row that appends, else 0. -/
def appendedCount (h : TsHeader) (p : Bytes) (raw : Bool) (code : Code) : Nat :=
  match code with
  | .started => 188 - startTailAt h p raw
  | .continued => 184
  | .finished => 188 - payloadAt h p
  | .lost => 0
  | .none => 0

/-- The number of each RESULT.CODE value (R31). -/
def codeNumber : Code → BitVec 3
  | .none => 0#3
  | .lost => 1#3
  | .started => 2#3
  | .continued => 3#3
  | .finished => 4#3

/-- The number of each RESULT.CAUSE value (R32). -/
def causeNumber : Cause → BitVec 4
  | .none => 0#4
  | .truncAf => 1#4
  | .truncPesMin => 2#4
  | .truncPesHdr => 3#4
  | .truncPesTs => 4#4
  | .invalidStartCode => 5#4
  | .continuityBroken => 6#4
  | .notAssembling => 7#4
  | .bufferOverflow => 8#4

/-! ### What no ABSORB and no packet class touches -/

/-- Everything that is not the assembler's or a parser's is as before. -/
def hostSideSame (s t : State) : Prop :=
  t.pkt = s.pkt ∧ t.config = s.config ∧ t.cmdErr = s.cmdErr ∧ t.busErr = s.busErr ∧ t.asmCap = s.asmCap
    ∧ t.hostProgram = s.hostProgram ∧ t.hostReads = s.hostReads

/-! ### Feeding packets -/

/-- ABSORB of one packet after another, each as the content of PKT (R72, R96). -/
def absorbAll : List Bytes → State → Host.Outcome State Fault Refusal
  | [], s => .next s
  | p :: r, s =>
    match exec .absorb { s with pkt := Memory.ofBytes 0 p } with
    | .next t => absorbAll r t
    | .fault e => .fault e
    | .refused e => .refused e

/-- The packet's counters follow `cc` one by one, modulo 16 (R190). -/
def ccChain (cc : BitVec 4) : List Bytes → Prop
  | [] => True
  | p :: r => (header p).cc = cc + 1 ∧ ccChain (header p).cc r

/-- A continuation packet (R17): whole, PUSI = 0, no adaptation field. -/
def isContinuation (p : Bytes) : Prop := p.length = 188 ∧ pusi p = false ∧ (header p).hasAf = false

/-- A completion packet (R17) whose adaptation field parses. -/
def isCompletion (p : Bytes) : Prop :=
  p.length = 188 ∧ pusi p = false ∧ (header p).hasAf = true ∧ afLen p ≤ 183

/-- A start packet (R17) whose adaptation field and PES header parse. -/
def isGoodStart (p : Bytes) : Prop :=
  p.length = 188 ∧ pusi p = true ∧ afOk (header p) p = true ∧ pesStatus p (payloadAt (header p) p) = .none

/-- The unit a start packet, its continuations and its completion carry (R205; with RAW, R187). -/
def unitOf (raw : Bool) (first : Bytes) (middle : List Bytes) (last : Bytes) : Bytes :=
  first.drop (startTailAt (header first) first raw) ++ middle.flatMap (fun p => p.drop 4)
    ++ last.drop (5 + afLen last)

/-! ### The transaction a step runs -/

/-- The host's next transaction is i. -/
def issues (s : State) (i : Instr) : Prop := ∃ l rest, s.hostProgram = l :: rest ∧ decode (.bus l) = .ok i

end Sys2Proof.Spec

open Sys2Proof Sys2Proof.Machine

/-! ## Encodings -/

/-- Every instruction an encoding can spell is read back from its own words, whatever its operands (R81, R88, R90). -/
def Obligations.DecodeOfEncodeIsTheInstruction : Prop :=
  ∀ i : Instr, i.wf = true → decode (encode i) = .ok i

/-- Every encoded word that spells an instruction spells a well-formed one and is that instruction's only
encoding: no bit of it is dropped (R81, R88, R90). In particular a read line with a data word and a write line
without one spell no instruction; R90 does not say what they spell, and this part is the model's choice
(DESIGN CHOICE, log entry 6). -/
def Obligations.EncodeOfDecodeIsTheWord : Prop :=
  ∀ (e : Encoded) (i : Instr), decode e = .ok i → i.wf = true ∧ encode i = e

/-- Words written out from R81, R88 and R90 decode to what they stand for. -/
def Obligations.WrittenOutWordsDecode : Prop :=
  decode (.cmd 0x00000000#32) = .ok .nop ∧ decode (.cmd 0x00000001#32) = .ok .init
    ∧ decode (.cmd 0x00000002#32) = .ok .absorb
    ∧ decode (.cmd 0x00000003#32) = .error .reservedCommand ∧ decode (.cmd 0x00000102#32) = .error .reservedCommand
    ∧ decode (.tsh 0x475FFF3A#32) = .ok (.start ⟨0x47#8, false, false, 8191#13, 0#2, 3#2, 10#4⟩)
    ∧ decode (.tsh 0x471FFF1F#32) = .ok (.continuation ⟨0x47#8, false, false, 8191#13, 0#2, 1#2, 15#4⟩)
    ∧ decode (.tsh 0x4700002F#32) = .ok (.completion ⟨0x47#8, false, false, 0#13, 0#2, 2#2, 15#4⟩)
    ∧ decode (.bus ⟨0x0108#16, none⟩) = .ok (.rd8 0x108#12) ∧ decode (.bus ⟨0x410C#16, none⟩) = .ok (.rd32 0x10C#12)
    ∧ decode (.bus ⟨0x8003#16, some 0x00000016#32⟩) = .ok (.wr8 0x003#12 0x16#8)
    ∧ decode (.bus ⟨0xC104#16, some 0xFFFFFFFF#32⟩) = .ok (.wr32 0x104#12 0xFFFFFFFF#32)

/-- R89: the class of a header word by its masks, which select on PUSI = W[22] and HAS_AF = W[5]; the three
are disjoint and cover every W, and the decoded operands are the fields of R81. -/
def Obligations.PacketClassesByMaskAndMatch : Prop :=
  ∀ w : Word,
    (decode (.tsh w) = .ok (.start (headerOf w)) ↔ w &&& 0x00400000#32 = 0x00400000#32)
      ∧ (decode (.tsh w) = .ok (.continuation (headerOf w)) ↔ w &&& 0x00400020#32 = 0x00000000#32)
      ∧ (decode (.tsh w) = .ok (.completion (headerOf w)) ↔ w &&& 0x00400020#32 = 0x00000020#32)
      ∧ (w &&& 0x00400000#32 = 0x00400000#32 ↔ w.getLsbD 22 = true)
      ∧ (w &&& 0x00400020#32 = 0x00000000#32 ↔ w.getLsbD 22 = false ∧ w.getLsbD 5 = false)
      ∧ (w &&& 0x00400020#32 = 0x00000020#32 ↔ w.getLsbD 22 = false ∧ w.getLsbD 5 = true)
      ∧ ((headerOf w).hasAf = true ↔ w.getLsbD 5 = true)

/-- R87 and R88: the three command words, and every other word, OPCODE >= 3 or any of bits [31:8] set, reserved. -/
def Obligations.CommandWordsByOpcodeAndReservedBits : Prop :=
  decode (.cmd 0x00000000#32) = .ok .nop ∧ decode (.cmd 0x00000001#32) = .ok .init
    ∧ decode (.cmd 0x00000002#32) = .ok .absorb
    ∧ ∀ d : Word, decode (.cmd d) = .error .reservedCommand ↔ 3 ≤ (d.extractLsb' 0 8).toNat ∨ d.extractLsb' 8 24 ≠ 0#24

/-- R90 with 93_implementation_defined.md item 18: a listing line with H[13:12] nonzero, or a WR8 line with
D[31:8] nonzero, spells no transaction, and the step refuses it. -/
def Obligations.IllFormedListingLinesAreRefused : Prop :=
  ∀ (s : State) (l : BusLine) (rest : List BusLine), s.hostProgram = l :: rest →
    (l.header.extractLsb' 12 2 ≠ 0#2 → step s = .refused (.illFormedListing .reservedHeaderBits))
      ∧ (∀ d : Word, l.header.extractLsb' 12 4 = 0x8#4 → l.data = some d → d.extractLsb' 8 24 ≠ 0#24 →
          step s = .refused (.illFormedListing .wr8DataTooWide))

/-! ## A step runs the decoded instruction -/

/-- The host's next line, when it decodes, is what the step runs, after the host has moved past it (R69); with
no line left the block does nothing (R280). That the host's lines stand in State is log entry 2. -/
def Obligations.StepRunsTheDecodedTransaction : Prop :=
  (∀ (s : State) (l : BusLine) (rest : List BusLine) (i : Instr), s.hostProgram = l :: rest → decode (.bus l) = .ok i →
      step s = exec i { s with hostProgram := rest })
    ∧ ∀ s : State, s.hostProgram = [] → step s = .next s

/-- R220: a WR32 to CMD executes the command its data word encodes, in the state the write finds; a WR8 to CMD
executes nothing. -/
def Obligations.CommandWriteRunsTheDecodedCommand : Prop :=
  (∀ (s : State) (d : Word) (i : Instr), decode (.cmd d) = .ok i → exec (.wr32 0x100#12 d) s = exec i s)
    ∧ ∀ (s : State) (d : Byte), exec (.wr8 0x100#12 d) s = .next { s with busErr := true }

/-- R180, R181, R182: ABSORB clears the per-packet RESULT flags, parses the header, parses the adaptation field
when there is one, and then runs the class the header word decodes to. -/
def Obligations.AbsorbRunsTheDecodedPacketClass : Prop :=
  ∀ (s : State) (p : Bytes) (w : Word) (i : Instr), snapshot s = some p →
    w = Spec.byte p 0 ++ Spec.byte p 1 ++ Spec.byte p 2 ++ Spec.byte p 3 → decode (.tsh w) = .ok i →
    ∃ m, exec .absorb s = exec i m
      ∧ m = { s with result := { s.result with unexpectedPid := false, sinkWritten := false, appended := 0 }
                     tsh := tshParse p
                     af := if (Spec.header p).hasAf then afParse p else s.af }

/-- What the host's probe places is what the very next step runs, for every table row's format (log entry 3). -/
def Obligations.PlacedWordIsTheNextToRun : Prop :=
  ∀ (s : State) (nbits w : Nat) (i : Instr), decodeTableWord nbits w = some i →
    (∀ l, encode i = .bus l → step (s.withFetchWord nbits w) = exec i s)
      ∧ (∀ d, encode i = .cmd d → step (s.withFetchWord nbits w) = exec i s)
      ∧ (∀ v, encode i = .tsh v → ∃ p : Bytes, p.take 4 = bytesBE v ∧ p.drop 4 = List.replicate 184 0
          ∧ step (s.withFetchWord nbits w) = exec i (absorbFront p { s with pkt := Memory.ofBytes 0 p }))

/-! ## Reset and the invariant -/

/-- R45: every register reads 0 at reset, the assembler is IDLE with no counter recorded, the buffer and the
sink log are empty and no PKT byte holds a value. -/
def Obligations.ResetValuesAreTheCollectedOnes : Prop :=
  (∀ k : Nat, State.reset.pkt.read k = none)
    ∧ State.reset.config = { pid := 0, raw := false } ∧ State.reset.fsm = .idle
    ∧ State.reset.lastCcValid = false ∧ State.reset.lastCcVal = 0 ∧ State.reset.trackedPid = 0
    ∧ State.reset.asmBuf = [] ∧ State.reset.asmLen = 0
    ∧ (∀ r : Reg, regValue r State.reset = 0)
    ∧ State.reset.sinkLog = []

/-- R290: a hardware reset from any state is CONFIG <- 0 and then the effect of INIT, with PKT left without a
value and the sink log started anew: the reset state of R45 for the same ASM_CAP. That the values the host has
read start anew too and that the host's program stays is the model's choice, log entry 11. -/
def Obligations.HardwareResetFromAnyState : Prop :=
  ∀ s : State,
    hardwareReset s = { State.resetWith s.asmCap with hostProgram := s.hostProgram }
      ∧ exec .init { s with config := { pid := 0, raw := false } }
          = .next { hardwareReset s with pkt := s.pkt, sinkLog := s.sinkLog, hostReads := s.hostReads }

/-- The reset state meets the invariant, whatever ASM_CAP is among the values R8 allows. -/
def Obligations.ResetMeetsTheInvariant : Prop := State.reset.Inv

/-- Every step from a state that meets the invariant ends in one that does: PKT canonical, ASM_LEN within
ASM_CAP, IDLE only with an empty buffer (R29), RESULT, TSH, AF and PES banks consistent, units within ASM_CAP. -/
def Obligations.StepKeepsTheInvariant : Prop :=
  ∀ s t : State, s.Inv → step s = .next t → t.Inv

/-- R29: whenever no command is executing, fsm = IDLE implies ASM_LEN = 0, along every successful run from reset. -/
def Obligations.IdleImpliesEmptyBufferOnEveryRun : Prop :=
  ∀ (prog : List Instr) (k : Nat) (t : State), runsTo k (State.reset.load prog) t → t.fsm = .idle → t.asmLen = 0

/-! ## Commands -/

/-- R221: NOP leaves the whole state as it is, also when it is written to CMD. -/
def Obligations.NopLeavesTheWholeState : Prop :=
  ∀ s : State, exec .nop s = .next s ∧ exec (.wr32 0x100#12 0x00000000#32) s = .next s

/-- R222: INIT completes from every state; it copies CONFIG.PID, returns the assembler to IDLE with no counter
and no buffer, zeroes RESULT, SINK_LEN, the sticky bits and every bank, and leaves PKT, CONFIG, the sink log
and everything else as it was. -/
def Obligations.InitRestoresTheFreshAssembler : Prop :=
  ∀ s : State, ∃ t, exec .init s = .next t
    ∧ t.trackedPid = s.config.pid ∧ t.fsm = .idle ∧ t.lastCcValid = false ∧ t.lastCcVal = 0 ∧ t.asmBuf = []
    ∧ t.result.word = 0 ∧ t.sinkLen = 0 ∧ t.cmdErr = false ∧ t.busErr = false
    ∧ (∀ r : Reg, r ≠ .config → r ≠ .status → regValue r t = 0)
    ∧ t.tsh = TshBank.zero ∧ t.af = AfBank.zero ∧ t.pes = PesBank.zero
    ∧ t.pkt = s.pkt ∧ t.config = s.config ∧ t.sinkLog = s.sinkLog ∧ t.asmCap = s.asmCap
    ∧ t.hostProgram = s.hostProgram ∧ t.hostReads = s.hostReads

/-- R224 and R267: a WR32 to CMD of any word other than 0, 1 and 2 sets STATUS.CMD_ERR and nothing else. -/
def Obligations.ReservedCommandSetsOnlyCmdErr : Prop :=
  ∀ (s : State) (d : Word), d ≠ 0 → d ≠ 1 → d ≠ 2 →
    exec (.wr32 0x100#12 d) s = .next { s with cmdErr := true }

/-! ## Parsers -/

/-- R110 to R115 and R121: an ABSORB completes on every written packet, and the header bank is the first four
bytes' fields bit for bit, with no check on any of them. -/
def Obligations.HeaderBankReproducesTheHeaderBits : Prop :=
  ∀ (s : State) (p : Bytes), snapshot s = some p → ∃ t, exec .absorb s = .next t
    ∧ t.tsh = { word := Spec.byte p 0 ++ Spec.byte p 1 ++ Spec.byte p 2 ++ Spec.byte p 3
                sync := Spec.byte p 0
                tei  := (Spec.byte p 1).getLsbD 7
                pusi := (Spec.byte p 1).getLsbD 6
                prio := (Spec.byte p 1).getLsbD 5
                pid  := (Spec.byte p 1).extractLsb' 0 5 ++ Spec.byte p 2
                tsc  := (Spec.byte p 3).extractLsb' 6 2
                afc  := (Spec.byte p 3).extractLsb' 4 2
                cc   := (Spec.byte p 3).extractLsb' 0 4 }

/-- R130 to R138: the adaptation-field bank after an ABSORB. With no adaptation field it keeps its values; with
L > 183 only AF_LEN is kept; otherwise the flag byte is P[5] whatever L is, a set PCR flag extracts the base
and 300 times it, and AF_STUFF is L - 1 without a PCR (0 for L = 0) and 0 with one. -/
def Obligations.AdaptationFieldBankByLengthAndPcrFlag : Prop :=
  ∀ (s : State) (p : Bytes), snapshot s = some p → ∃ t, exec .absorb s = .next t
    ∧ ((Spec.header p).hasAf = false → t.af = s.af)
    ∧ ((Spec.header p).hasAf = true → Spec.afLen p > 183 → t.af = { AfBank.zero with len := Spec.byte p 4 })
    ∧ ((Spec.header p).hasAf = true → Spec.afLen p ≤ 183 →
        t.af.len = Spec.byte p 4 ∧ t.af.flags = Spec.byte p 5 ∧ t.af.valid = true
          ∧ t.af.pcrValid = (Spec.byte p 5).getLsbD 4
          ∧ ((Spec.byte p 5).getLsbD 4 = true → t.af.pcrBase = Spec.pcrBase p
              ∧ t.af.pcrTicks.toNat = (Spec.pcrBase p).toNat * 300 ∧ t.af.stuff = 0)
          ∧ ((Spec.byte p 5).getLsbD 4 = false → t.af.pcrBase = 0 ∧ t.af.pcrTicks = 0
              ∧ t.af.stuff.toNat = Spec.afLen p - 1))

/-- R150 to R168 and R170: the PES bank after a START is that of PES_PARSE at 4 + afConsumed when the adaptation
field is sound, and is not written otherwise (R185); every other register of the packet's parse is as before. -/
def Obligations.PesBankAfterStart : Prop :=
  ∀ (s : State) (p : Bytes) (h : TsHeader), snapshot s = some p → ∃ t, exec (.start h) s = .next t
    ∧ (Spec.afOk h p = true → t.pes = Spec.pesBank p (Spec.payloadAt h p))
    ∧ (Spec.afOk h p = false → t.pes = s.pes)
    ∧ t.tsh = s.tsh ∧ t.af = s.af ∧ t.sinkLen = s.sinkLen ∧ Spec.hostSideSame s t

/-- R86 and R162: the timestamp of the bytes that encode a 33-bit value, whatever the marker bits are, is that
value, in the PTS of a start packet with flags 2 and no adaptation field. -/
def Obligations.TimestampIgnoresMarkerBits : Prop :=
  ∀ (s : State) (p : Bytes) (h : TsHeader) (v : BitVec 33) (m0 : BitVec 4) (m1 m2 m4 : BitVec 1),
    snapshot s = some p → h.hasAf = false → Spec.ptsDtsFlags p 4 = 2#2 →
    Spec.headerLength p 4 ≤ 184 →
    Spec.byte p 13 = m0 ++ v.extractLsb' 30 3 ++ m1 → Spec.byte p 14 = v.extractLsb' 22 8 →
    Spec.byte p 15 = v.extractLsb' 15 7 ++ m2 → Spec.byte p 16 = v.extractLsb' 7 8 →
    Spec.byte p 17 = v.extractLsb' 0 7 ++ m4 →
    ∃ t, exec (.start h) s = .next t ∧ t.pes.pts = v ∧ t.pes.ptsValid = true ∧ t.pes.valid = true
      ∧ t.pes.dts = 0 ∧ t.pes.dtsValid = false

/-! ## The assembler -/

/-- R183 to R189 and the START rows of R206: a START completes on every written packet, takes its row, tracks
the packet's PID (recording a change), and leaves the TSH and AF banks, SINK_LEN and the host's side. -/
def Obligations.StartTakesItsRow : Prop :=
  ∀ (s : State) (p : Bytes) (h : TsHeader), snapshot s = some p → ∃ t, exec (.start h) s = .next t
    ∧ (Spec.startRow h p s).holds s t
    ∧ t.trackedPid = h.pid
    ∧ t.result.unexpectedPid = (s.result.unexpectedPid || decide (h.pid ≠ s.trackedPid))
    ∧ t.result.sinkWritten = s.result.sinkWritten
    ∧ (t.result.code = .started → t.result.appended.toNat = 188 - Spec.startTailAt h p s.config.raw)
    ∧ (t.result.code = .lost → t.result.appended = s.result.appended)
    ∧ t.tsh = s.tsh ∧ t.af = s.af ∧ t.sinkLen = s.sinkLen ∧ Spec.hostSideSame s t

/-- R190 to R194, R198 and the CONTINUATION rows of R206: a CONTINUATION completes on every written packet and
takes its row; TRACKED_PID, the banks, SINK_LEN and the host's side are as before. -/
def Obligations.ContinuationTakesItsRow : Prop :=
  ∀ (s : State) (p : Bytes) (h : TsHeader), snapshot s = some p → (Instr.continuation h).wf = true →
    ∃ t, exec (.continuation h) s = .next t
      ∧ (Spec.nonStartRow h p s).holds s t
      ∧ t.trackedPid = s.trackedPid ∧ t.tsh = s.tsh ∧ t.af = s.af ∧ t.pes = s.pes ∧ t.sinkLen = s.sinkLen
      ∧ t.result.unexpectedPid = s.result.unexpectedPid ∧ t.result.sinkWritten = s.result.sinkWritten
      ∧ (t.result.code = .continued → t.result.appended = 184)
      ∧ (t.result.code = .lost → t.result.appended = s.result.appended)
      ∧ Spec.hostSideSame s t

/-- R190 to R193, R195 to R198 and the COMPLETION rows of R206: a COMPLETION completes on every written packet
and takes its row; a FINISHED one writes SINK_LEN and SINK_WRITTEN, a LOST one neither. -/
def Obligations.CompletionTakesItsRow : Prop :=
  ∀ (s : State) (p : Bytes) (h : TsHeader), snapshot s = some p → (Instr.completion h).wf = true →
    ∃ t, exec (.completion h) s = .next t
      ∧ (Spec.nonStartRow h p s).holds s t
      ∧ t.trackedPid = s.trackedPid ∧ t.tsh = s.tsh ∧ t.af = s.af ∧ t.pes = s.pes
      ∧ t.result.unexpectedPid = s.result.unexpectedPid
      ∧ (t.result.code = .finished → t.result.sinkWritten = true
          ∧ t.sinkLen = BitVec.ofNat 32 (s.asmBuf.length + (188 - Spec.payloadAt h p))
          ∧ t.result.appended.toNat = 188 - Spec.payloadAt h p)
      ∧ (t.result.code = .lost → t.result.sinkWritten = s.result.sinkWritten ∧ t.sinkLen = s.sinkLen
          ∧ t.result.appended = s.result.appended)
      ∧ Spec.hostSideSame s t

/-- R206, the whole transition summary: ABSORB of every written packet completes and takes the one row the
table gives it; in every START row TRACKED_PID becomes the packet's PID, in the others it stays. -/
def Obligations.AbsorbFollowsTheTransitionTable : Prop :=
  ∀ (s : State) (p : Bytes), snapshot s = some p → ∃ t, exec .absorb s = .next t
    ∧ (Spec.row p s).holds s t
    ∧ t.trackedPid = (if Spec.pusi p then (Spec.header p).pid else s.trackedPid)

/-- R30, R42 and R182: every ABSORB writes every field of RESULT: UNEXPECTED_PID exactly for a start packet of
another PID, SINK_WRITTEN exactly with FINISHED, APPENDED the bytes appended. -/
def Obligations.AbsorbWritesEveryResultField : Prop :=
  ∀ (s : State) (p : Bytes), snapshot s = some p → ∃ t, exec .absorb s = .next t
    ∧ t.result.code = (Spec.row p s).code ∧ t.result.cause = (Spec.row p s).cause
    ∧ t.result.unexpectedPid = (Spec.pusi p && decide ((Spec.header p).pid ≠ s.trackedPid))
    ∧ t.result.sinkWritten = decide (t.result.code = .finished)
    ∧ t.result.appended.toNat = Spec.appendedCount (Spec.header p) p s.config.raw t.result.code

/-- R203: every ABSORB of a written packet terminates with exactly one of four codes, a cause exactly with LOST,
and after every failure the assembler is IDLE with an empty buffer. -/
def Obligations.AbsorbEndsWithOneOfFourCodes : Prop :=
  ∀ (s : State) (p : Bytes), snapshot s = some p → ∃ t, exec .absorb s = .next t
    ∧ (t.result.code = .lost ∨ t.result.code = .started ∨ t.result.code = .continued ∨ t.result.code = .finished)
    ∧ (t.result.code = .lost ↔ t.result.cause ≠ .none)
    ∧ (t.result.code = .lost → t.fsm = .idle ∧ t.asmBuf = [])

/-- The frame of ABSORB: PKT (R22), CONFIG (R23), the sticky bits, ASM_CAP and the host's side are as before; the
PES bank changes only on a start packet (R151) and SINK_LEN only on a completion (R35). -/
def Obligations.AbsorbLeavesTheHostSide : Prop :=
  ∀ (s : State) (p : Bytes), snapshot s = some p → ∃ t, exec .absorb s = .next t
    ∧ Spec.hostSideSame s t
    ∧ (Spec.pusi p = false → t.pes = s.pes)
    ∧ (t.result.code ≠ .finished → t.sinkLen = s.sinkLen ∧ t.sinkLog = s.sinkLog)
    ∧ (t.result.code = .finished → ∃ u, t.sinkLog = s.sinkLog ++ [u] ∧ t.sinkLen = BitVec.ofNat 32 u.length)

/-- R204: what an ABSORB does to the assembler, to RESULT and to the sink depends only on PKT, CONFIG.RAW, fsm,
LASTCC, TRACKED_PID, ASMBUF and ASM_CAP: two states alike in those, however they differ elsewhere, take the
same transition and write the same units. -/
def Obligations.AbsorbDependsOnlyOnTheAssemblerState : Prop :=
  ∀ (s s' : State) (p : Bytes), snapshot s = some p → snapshot s' = some p →
    s'.config.raw = s.config.raw → s'.fsm = s.fsm → s'.lastCc = s.lastCc → s'.trackedPid = s.trackedPid →
    s'.asmBuf = s.asmBuf → s'.asmCap = s.asmCap →
    ∃ t t' units, exec .absorb s = .next t ∧ exec .absorb s' = .next t'
      ∧ t'.fsm = t.fsm ∧ t'.lastCc = t.lastCc ∧ t'.trackedPid = t.trackedPid ∧ t'.asmBuf = t.asmBuf
      ∧ t'.result = t.result ∧ t'.tsh = t.tsh
      ∧ t.sinkLog = s.sinkLog ++ units ∧ t'.sinkLog = s'.sinkLog ++ units

/-- R201 and R202: SYNC, TEI, PRIO and TSC never change a transition, and neither does the PID of a non-start
packet: two packets that differ only in those take a state to the same transition. -/
def Obligations.IgnoredHeaderFieldsNeverChangeATransition : Prop :=
  ∀ (s s' : State) (p q : Bytes), snapshot s = some p → snapshot s' = some q → s' = { s with pkt := s'.pkt } →
    q.drop 4 = p.drop 4 → Spec.pusi q = Spec.pusi p → (Spec.header q).hasAf = (Spec.header p).hasAf →
    (Spec.header q).cc = (Spec.header p).cc →
    (Spec.pusi p = true → (Spec.header q).pid = (Spec.header p).pid) →
    ∃ t t', exec .absorb s = .next t ∧ exec .absorb s' = .next t'
      ∧ t'.fsm = t.fsm ∧ t'.lastCc = t.lastCc ∧ t'.trackedPid = t.trackedPid ∧ t'.asmBuf = t.asmBuf
      ∧ t'.result = t.result ∧ t'.sinkLog = t.sinkLog ∧ t'.sinkLen = t.sinkLen ∧ t'.pes = t.pes ∧ t'.af = t.af

/-- R205: a start packet, k continuations and a completion in counter sequence, fed from any state whose buffer
can hold them, write exactly one unit, the concatenation of their payloads in arrival order, of the stated
length, and leave the assembler IDLE. With RAW the start packet also keeps its PES header (R187). -/
def Obligations.UnitIsTheConcatenationOfItsPackets : Prop :=
  ∀ (s : State) (first last : Bytes) (middle : List Bytes),
    Spec.isGoodStart first → (∀ p ∈ middle, Spec.isContinuation p) → Spec.isCompletion last →
    Spec.ccChain (Spec.header first).cc (middle ++ [last]) →
    (Spec.unitOf s.config.raw first middle last).length ≤ s.asmCap →
    ∃ t, Spec.absorbAll (first :: middle ++ [last]) s = .next t
      ∧ t.sinkLog = s.sinkLog ++ [Spec.unitOf s.config.raw first middle last]
      ∧ t.result.code = .finished ∧ t.fsm = .idle ∧ t.asmBuf = []
      ∧ t.sinkLen = BitVec.ofNat 32 (Spec.unitOf s.config.raw first middle last).length
      ∧ (s.config.raw = false → (Spec.unitOf s.config.raw first middle last).length
          = (188 - (Spec.payloadAt (Spec.header first) first
              + Spec.headerLength first (Spec.payloadAt (Spec.header first) first)))
            + 184 * middle.length + (183 - Spec.afLen last))

/-- R199: a good start packet that arrives while a unit is open discards that unit unwritten and opens its own. -/
def Obligations.StartDiscardsTheOpenUnit : Prop :=
  ∀ (s : State) (p : Bytes), s.fsm = .assembling → snapshot s = some p → Spec.isGoodStart p →
    ∃ t, exec .absorb s = .next t ∧ t.result.code = .started ∧ t.fsm = .assembling ∧ t.sinkLog = s.sinkLog
      ∧ t.asmBuf = p.drop (Spec.startTailAt (Spec.header p) p s.config.raw)

/-- R291: after reset a non-start packet is LOST with cause CONTINUITY_BROKEN, whatever it holds. -/
def Obligations.FirstNonStartPacketAfterResetIsLost : Prop :=
  ∀ (p : Bytes) (cap : Nat), p.length = 188 → Spec.pusi p = false →
    ∃ t, exec .absorb { State.resetWith cap with pkt := Memory.ofBytes 0 p } = .next t
      ∧ t.result.code = .lost ∧ t.result.cause = .continuityBroken ∧ t.fsm = .idle
      ∧ t.lastCc = some (Spec.header p).cc ∧ t.sinkLog = []

/-! ## The host bus -/

/-- R241, R65 and R266: RD8 returns the PKT byte and changes nothing else; outside PKT it sets BUS_ERR and
returns 0. -/
def Obligations.ByteReadReturnsThePacketByte : Prop :=
  (∀ (s : State) (a : Addr) (b : Byte), a.toNat ≤ 0x0BB → s.pkt.read a.toNat = some b →
      exec (.rd8 a) s = .next { s with hostReads := s.hostReads ++ [.byte b] })
    ∧ ∀ (s : State) (a : Addr), a.toNat > 0x0BB →
      exec (.rd8 a) s = .next { s with busErr := true, hostReads := s.hostReads ++ [.byte 0] }

/-- R240, R63, R68, R225 and R266: RD32 returns four PKT bytes in little-endian lanes, or the word of the register
the map names, or 0 for CMD and every reserved address, and changes nothing else; misaligned it sets BUS_ERR
and returns 0; a word with a PKT byte never written is the model fault. -/
def Obligations.WordReadReturnsPacketRegisterOrZero : Prop :=
  (∀ (s : State) (a : Addr) (b0 b1 b2 b3 : Byte), a.toNat % 4 = 0 → a.toNat ≤ 0x0B8 →
      s.pkt.read a.toNat = some b0 → s.pkt.read (a.toNat + 1) = some b1 →
      s.pkt.read (a.toNat + 2) = some b2 → s.pkt.read (a.toNat + 3) = some b3 →
      exec (.rd32 a) s = .next { s with hostReads := s.hostReads ++ [.word (b3 ++ b2 ++ b1 ++ b0)] })
    ∧ (∀ (s : State) (a : Addr) (r : Reg), regAt a.toNat = some r →
        exec (.rd32 a) s = .next { s with hostReads := s.hostReads ++ [.word (if r = .cmd then 0 else regValue r s)] })
    ∧ (∀ (s : State) (a : Addr), a.toNat % 4 = 0 → a.toNat ≥ 0x0BC → regAt a.toNat = none →
        exec (.rd32 a) s = .next { s with hostReads := s.hostReads ++ [.word 0] })
    ∧ (∀ (s : State) (a : Addr), a.toNat % 4 ≠ 0 →
        exec (.rd32 a) s = .next { s with busErr := true, hostReads := s.hostReads ++ [.word 0] })
    ∧ ∀ (s : State) (a : Addr) (k : Nat), a.toNat % 4 = 0 → a.toNat ≤ 0x0B8 → k < 4 → s.pkt.read (a.toNat + k) = none →
        exec (.rd32 a) s = .fault .unwrittenPacketByte

/-- R243, R65 and R266: WR8 inside PKT changes that byte and nothing else, so every other byte reads as before;
outside PKT it sets BUS_ERR and nothing else. -/
def Obligations.ByteWriteChangesOnlyThatByte : Prop :=
  (∀ (s : State) (a : Addr) (d : Byte), a.toNat ≤ 0x0BB →
      ∃ m, exec (.wr8 a d) s = .next { s with pkt := m }
        ∧ m.read a.toNat = some d ∧ ∀ c, c ≠ a.toNat → m.read c = s.pkt.read c)
    ∧ ∀ (s : State) (a : Addr) (d : Byte), a.toNat > 0x0BB → exec (.wr8 a d) s = .next { s with busErr := true }

/-- R242, R63, R65 and R266: WR32 inside PKT writes its four lanes at a to a + 3 and nothing else; misaligned it
sets BUS_ERR and nothing else, also at CMD, so no command runs (R271). -/
def Obligations.WordWriteChangesOnlyItsFourBytes : Prop :=
  (∀ (s : State) (a : Addr) (d : Word), a.toNat % 4 = 0 → a.toNat ≤ 0x0B8 →
      ∃ m, exec (.wr32 a d) s = .next { s with pkt := m }
        ∧ (∀ k, k < 4 → m.read (a.toNat + k) = some (d.extractLsb' (8 * k) 8))
        ∧ ∀ c, c < a.toNat ∨ a.toNat + 4 ≤ c → m.read c = s.pkt.read c)
    ∧ ∀ (s : State) (a : Addr) (d : Word), a.toNat % 4 ≠ 0 → exec (.wr32 a d) s = .next { s with busErr := true }

/-- R63: "a byte written by WR8 at a is read back by RD32 at a & ~3 in lane a mod 4": when the word's four bytes
hold a value, the read after the write returns that lane. -/
def Obligations.ByteWriteReadsBackInItsLane : Prop :=
  ∀ (s : State) (a : Addr) (d : Byte), a.toNat ≤ 0x0BB →
    (∀ k, k < 4 → s.pkt.read (a.toNat / 4 * 4 + k) ≠ none) →
    ∃ m t v, exec (.wr8 a d) s = .next m ∧ exec (.rd32 (BitVec.ofNat 12 (a.toNat / 4 * 4))) m = .next t
      ∧ t.hostReads = s.hostReads ++ [.word v] ∧ v.extractLsb' (8 * (a.toNat % 4)) 8 = d

/-- R245 and R23: a WR32 to CONFIG stores data & 0x00011FFF, which a read returns, and changes nothing else; the
tracked PID in particular stays (R295). -/
def Obligations.ConfigWriteKeepsPidAndRaw : Prop :=
  ∀ (s : State) (d : Word), ∃ c, exec (.wr32 0x104#12 d) s = .next { s with config := c }
    ∧ c.pid = d.extractLsb' 0 13 ∧ c.raw = d.getLsbD 16
    ∧ regValue .config { s with config := c } = d &&& 0x00011FFF#32

/-- R246 and R68: a WR32 to a read-only register or to a reserved aligned address leaves the whole state. -/
def Obligations.WritesToReadOnlyAndReservedAreIgnored : Prop :=
  ∀ (s : State) (a : Addr) (d : Word), a.toNat % 4 = 0 → a.toNat ≥ 0x0BC → a ≠ 0x100#12 → a ≠ 0x104#12 →
    exec (.wr32 a d) s = .next s

/-- R46 and R282: a read of a PKT byte that holds no value, by RD8, RD32, ABSORB or a dispatched class, is the
model fault UnwrittenPacketByte. -/
def Obligations.UnwrittenPacketByteFaults : Prop :=
  ∀ (s : State) (k : Nat), k < 188 → s.pkt.read k = none →
    exec .absorb s = .fault .unwrittenPacketByte
      ∧ (∀ a : Addr, a.toNat = k → exec (.rd8 a) s = .fault .unwrittenPacketByte)
      ∧ (∀ a : Addr, a.toNat % 4 = 0 → a.toNat ≤ k → k < a.toNat + 4 → exec (.rd32 a) s = .fault .unwrittenPacketByte)
      ∧ ∀ h : TsHeader, exec (.start h) s = .fault .unwrittenPacketByte
          ∧ exec (.continuation h) s = .fault .unwrittenPacketByte ∧ exec (.completion h) s = .fault .unwrittenPacketByte

/-- R260, R272: the block never stops by itself: with every PKT byte written and a well-formed program, every
step is a next state, whatever the transaction. -/
def Obligations.WrittenPacketNeverStops : Prop :=
  ∀ (s : State) (p : Bytes), snapshot s = some p →
    (∀ l rest, s.hostProgram = l :: rest → ∃ i, decode (.bus l) = .ok i) → ∃ t, step s = .next t

/-- R61: the registers stand at the offsets of the map, each at its own, and nowhere else. -/
def Obligations.RegisterMapIsOneToOne : Prop :=
  (regAt 0x100 = some .cmd ∧ regAt 0x104 = some .config ∧ regAt 0x108 = some .result ∧ regAt 0x10C = some .status
      ∧ regAt 0x110 = some .asmLen ∧ regAt 0x114 = some .sinkLen ∧ regAt 0x120 = some .tshWord
      ∧ regAt 0x124 = some .tshFields ∧ regAt 0x130 = some .afFields ∧ regAt 0x134 = some .pcrBaseLo
      ∧ regAt 0x138 = some .pcrBaseHi ∧ regAt 0x13C = some .pcrTicksLo ∧ regAt 0x140 = some .pcrTicksHi
      ∧ regAt 0x150 = some .pesId ∧ regAt 0x154 = some .pesFields ∧ regAt 0x158 = some .pesStatus
      ∧ regAt 0x15C = some .ptsLo ∧ regAt 0x160 = some .ptsHi ∧ regAt 0x164 = some .dtsLo ∧ regAt 0x168 = some .dtsHi)
    ∧ (∀ (a b : Nat) (r : Reg), regAt a = some r → regAt b = some r → a = b)
    ∧ ∀ (a : Nat) (r : Reg), regAt a = some r → a % 4 = 0 ∧ 0x100 ≤ a ∧ a ≤ 0x168

/-- R30 to R35 and R244: the fields of RESULT and STATUS stand at their bit positions, CODE and CAUSE by the
numbers of R31 and R32, and every reserved bit reads 0; ASM_LEN reads as the length of ASMBUF and SINK_LEN as
its stored value. -/
def Obligations.ResultAndStatusFieldPositions : Prop :=
  ∀ s : State,
    (let w := regValue .status s
     w.getLsbD 0 = decide (s.fsm = .assembling) ∧ w.getLsbD 1 = s.lastCc.isSome ∧ w.extractLsb' 2 2 = 0#2
       ∧ w.extractLsb' 4 4 = s.lastCc.getD 0 ∧ w.extractLsb' 8 13 = s.trackedPid ∧ w.extractLsb' 21 3 = 0#3
       ∧ w.getLsbD 24 = s.cmdErr ∧ w.getLsbD 25 = s.busErr ∧ w.extractLsb' 26 6 = 0#6)
      ∧ (let w := regValue .result s
         w.extractLsb' 0 3 = Spec.codeNumber s.result.code ∧ w.getLsbD 3 = false
           ∧ w.extractLsb' 4 4 = Spec.causeNumber s.result.cause
           ∧ w.getLsbD 8 = s.result.unexpectedPid ∧ w.getLsbD 9 = s.result.sinkWritten ∧ w.extractLsb' 10 6 = 0#6
           ∧ w.extractLsb' 16 8 = s.result.appended ∧ w.extractLsb' 24 8 = 0#8)
      ∧ regValue .asmLen s = BitVec.ofNat 32 s.asmBuf.length ∧ regValue .sinkLen s = s.sinkLen

/-- R36 to R41 and R244: the fields of the parsed-field registers stand at their bit positions, and every other
bit reads 0. -/
def Obligations.ParsedFieldPositions : Prop :=
  ∀ s : State,
    regValue .tshWord s = s.tsh.word
      ∧ regValue .tshFields s = s.tsh.sync ++ s.tsh.cc ++ s.tsh.afc ++ s.tsh.tsc ++ BitVec.ofBool s.tsh.prio
          ++ BitVec.ofBool s.tsh.pusi ++ BitVec.ofBool s.tsh.tei ++ s.tsh.pid
      ∧ regValue .afFields s = 0#6 ++ BitVec.ofBool s.af.pcrValid ++ BitVec.ofBool s.af.valid ++ s.af.stuff
          ++ s.af.flags ++ s.af.len
      ∧ 0#31 ++ s.af.pcrBase = regValue .pcrBaseHi s ++ regValue .pcrBaseLo s
      ∧ 0#22 ++ s.af.pcrTicks = regValue .pcrTicksHi s ++ regValue .pcrTicksLo s
      ∧ regValue .pesId s = s.pes.streamId ++ s.pes.startCode
      ∧ regValue .pesFields s = s.pes.hdrDataLen ++ s.pes.extFlags ++ s.pes.ptsDtsFlags ++ s.pes.packetLength
      ∧ regValue .pesStatus s = 0#12 ++ BitVec.ofBool s.pes.dtsValid ++ BitVec.ofBool s.pes.ptsValid
          ++ BitVec.ofBool s.pes.startCodeOk ++ BitVec.ofBool s.pes.valid ++ 0#7 ++ s.pes.hdrTotalLen
      ∧ 0#31 ++ s.pes.pts = regValue .ptsHi s ++ regValue .ptsLo s
      ∧ 0#31 ++ s.pes.dts = regValue .dtsHi s ++ regValue .dtsLo s

/-! ## Whole-machine rules -/

/-- R43 and R74: the sink log only grows: every step keeps what was written, and appends a
unit, one, only when the host issued an ABSORB that ended FINISHED. -/
def Obligations.SinkLogIsAppendOnly : Prop :=
  ∀ s t : State, step s = .next t →
    t.sinkLog = s.sinkLog
      ∨ Spec.issues s (.wr32 0x100#12 0x00000002#32) ∧ t.result.code = .finished
          ∧ ∃ u, t.sinkLog = s.sinkLog ++ [u]

/-- R33, R42 and R273: CMD_ERR and BUS_ERR are sticky: a step clears one only by INIT; a step sets CMD_ERR only by
a reserved command and BUS_ERR only by an illegal access. -/
def Obligations.StickyBitsChangeOnlyByTheirRules : Prop :=
  ∀ s t : State, step s = .next t →
    (s.cmdErr = true → t.cmdErr = false → Spec.issues s (.wr32 0x100#12 0x00000001#32))
      ∧ (s.busErr = true → t.busErr = false → Spec.issues s (.wr32 0x100#12 0x00000001#32))
      ∧ (s.cmdErr = false → t.cmdErr = true →
          ∃ d, Spec.issues s (.wr32 0x100#12 d) ∧ decode (.cmd d) = .error .reservedCommand)
      ∧ (s.busErr = false → t.busErr = true →
          (∃ a, (Spec.issues s (.rd32 a) ∨ ∃ d, Spec.issues s (.wr32 a d)) ∧ a.toNat % 4 ≠ 0)
            ∨ ∃ a, (Spec.issues s (.rd8 a) ∨ ∃ d, Spec.issues s (.wr8 a d)) ∧ a.toNat > 0x0BB)

/-- R22 and R23: PKT changes only by a WR8 or WR32 inside it, and CONFIG only by a WR32 to CONFIG: no command
writes either. ASM_CAP never changes (R8). -/
def Obligations.PacketAndConfigChangeOnlyByTheHost : Prop :=
  ∀ s t : State, step s = .next t →
    (t.pkt ≠ s.pkt → ∃ a : Addr, a.toNat ≤ 0x0BB ∧ ((∃ d, Spec.issues s (.wr8 a d)) ∨ ∃ d, Spec.issues s (.wr32 a d)))
      ∧ (t.config ≠ s.config → ∃ d, Spec.issues s (.wr32 0x104#12 d))
      ∧ t.asmCap = s.asmCap

/-- R27 and R295: TRACKED_PID changes only by INIT, to CONFIG.PID, or by an ABSORB of a start packet, to that
packet's PID. -/
def Obligations.TrackedPidChangesOnlyByInitOrStart : Prop :=
  ∀ s t : State, step s = .next t → t.trackedPid ≠ s.trackedPid →
    Spec.issues s (.wr32 0x100#12 0x00000001#32) ∧ t.trackedPid = s.config.pid
      ∨ Spec.issues s (.wr32 0x100#12 0x00000002#32)
          ∧ ∃ p, snapshot s = some p ∧ Spec.pusi p = true ∧ t.trackedPid = (Spec.header p).pid

/-- R67: a read has no side effect but the BusError of an illegal one (R65): whatever the address, an RD8 or RD32
that completes changes only BUS_ERR and the values read; an RD8 changes BUS_ERR only outside PKT, and an RD32
only at an address that is no multiple of 4. -/
def Obligations.ReadsHaveNoSideEffect : Prop :=
  ∀ (s t : State) (a : Addr),
    (exec (.rd8 a) s = .next t →
        (∃ b, t = { s with busErr := t.busErr, hostReads := s.hostReads ++ [.byte b] })
          ∧ (t.busErr ≠ s.busErr → a.toNat > 0x0BB))
      ∧ (exec (.rd32 a) s = .next t →
        (∃ w, t = { s with busErr := t.busErr, hostReads := s.hostReads ++ [.word w] })
          ∧ (t.busErr ≠ s.busErr → a.toNat % 4 ≠ 0))

/-! ## Host programs -/

/-- R96: LDPKT is 47 transactions that, issued from any state, load the packet whatever PKT held before and change
nothing else of the block. -/
def Obligations.LoadPacketFillsTheWholeBuffer : Prop :=
  ∀ (s : State) (p : Bytes), s.hostProgram = [] → s.pkt.wf = true → p.length = 188 →
    runsTo 47 (s.load (ldpkt p)) { s with pkt := Memory.ofBytes 0 p }

/-- R96: FEED of a packet has the effect of one ABSORB of that packet. -/
def Obligations.FeedAbsorbsThePacket : Prop :=
  ∀ (s t : State) (p : Bytes), s.hostProgram = [] → s.pkt.wf = true → p.length = 188 →
    exec .absorb { s with pkt := Memory.ofBytes 0 p } = .next t → runsTo 48 (s.load (feed p)) t

/-- R96 and R97: SETCFG then CMD_INIT, from any state with nothing left to issue, leaves the fresh assembler for
that PID and mode. -/
def Obligations.ConfigureThenInitTracksThePid : Prop :=
  ∀ (s : State) (pid : BitVec 13) (raw : Bool), s.hostProgram = [] →
    ∃ t, runsTo 2 (s.load [setcfg pid.toNat (if raw then 1 else 0), cmdWrite 0x00000001#32]) t
      ∧ t.config = { pid := pid, raw := raw } ∧ t.trackedPid = pid ∧ t.fsm = .idle ∧ t.lastCc = none
      ∧ t.asmBuf = [] ∧ t.result = ResultReg.zero ∧ t.pkt = s.pkt ∧ t.sinkLog = s.sinkLog
end

