-- ==== Sys2Proof/Laws/State.lean ====
section
/-! SUPPORT. One lemma per field per update of State, so that no proof unfolds a record update. -/

namespace Sys2Proof.Machine

/-! ### writeByte -/

@[simp] theorem writeByte_pkt (a : Nat) (b : Byte) (s : State) : (writeByte a b s).pkt = s.pkt.write a b := rfl
@[simp] theorem writeByte_config (a : Nat) (b : Byte) (s : State) : (writeByte a b s).config = s.config := rfl
@[simp] theorem writeByte_fsm (a : Nat) (b : Byte) (s : State) : (writeByte a b s).fsm = s.fsm := rfl
@[simp] theorem writeByte_lastCc (a : Nat) (b : Byte) (s : State) : (writeByte a b s).lastCc = s.lastCc := rfl
@[simp] theorem writeByte_trackedPid (a : Nat) (b : Byte) (s : State) : (writeByte a b s).trackedPid = s.trackedPid := rfl
@[simp] theorem writeByte_asmBuf (a : Nat) (b : Byte) (s : State) : (writeByte a b s).asmBuf = s.asmBuf := rfl
@[simp] theorem writeByte_result (a : Nat) (b : Byte) (s : State) : (writeByte a b s).result = s.result := rfl
@[simp] theorem writeByte_cmdErr (a : Nat) (b : Byte) (s : State) : (writeByte a b s).cmdErr = s.cmdErr := rfl
@[simp] theorem writeByte_busErr (a : Nat) (b : Byte) (s : State) : (writeByte a b s).busErr = s.busErr := rfl
@[simp] theorem writeByte_sinkLen (a : Nat) (b : Byte) (s : State) : (writeByte a b s).sinkLen = s.sinkLen := rfl
@[simp] theorem writeByte_tsh (a : Nat) (b : Byte) (s : State) : (writeByte a b s).tsh = s.tsh := rfl
@[simp] theorem writeByte_af (a : Nat) (b : Byte) (s : State) : (writeByte a b s).af = s.af := rfl
@[simp] theorem writeByte_pes (a : Nat) (b : Byte) (s : State) : (writeByte a b s).pes = s.pes := rfl
@[simp] theorem writeByte_sinkLog (a : Nat) (b : Byte) (s : State) : (writeByte a b s).sinkLog = s.sinkLog := rfl
@[simp] theorem writeByte_asmCap (a : Nat) (b : Byte) (s : State) : (writeByte a b s).asmCap = s.asmCap := rfl
@[simp] theorem writeByte_hostProgram (a : Nat) (b : Byte) (s : State) : (writeByte a b s).hostProgram = s.hostProgram := rfl
@[simp] theorem writeByte_hostReads (a : Nat) (b : Byte) (s : State) : (writeByte a b s).hostReads = s.hostReads := rfl

/-! ### writeWord -/

@[simp] theorem writeWord_pkt (a : Nat) (d : Word) (s : State) : (writeWord a d s).pkt = s.pkt.writeBytes a (bytesLE d) := rfl
@[simp] theorem writeWord_config (a : Nat) (d : Word) (s : State) : (writeWord a d s).config = s.config := rfl
@[simp] theorem writeWord_fsm (a : Nat) (d : Word) (s : State) : (writeWord a d s).fsm = s.fsm := rfl
@[simp] theorem writeWord_lastCc (a : Nat) (d : Word) (s : State) : (writeWord a d s).lastCc = s.lastCc := rfl
@[simp] theorem writeWord_trackedPid (a : Nat) (d : Word) (s : State) : (writeWord a d s).trackedPid = s.trackedPid := rfl
@[simp] theorem writeWord_asmBuf (a : Nat) (d : Word) (s : State) : (writeWord a d s).asmBuf = s.asmBuf := rfl
@[simp] theorem writeWord_result (a : Nat) (d : Word) (s : State) : (writeWord a d s).result = s.result := rfl
@[simp] theorem writeWord_cmdErr (a : Nat) (d : Word) (s : State) : (writeWord a d s).cmdErr = s.cmdErr := rfl
@[simp] theorem writeWord_busErr (a : Nat) (d : Word) (s : State) : (writeWord a d s).busErr = s.busErr := rfl
@[simp] theorem writeWord_sinkLen (a : Nat) (d : Word) (s : State) : (writeWord a d s).sinkLen = s.sinkLen := rfl
@[simp] theorem writeWord_tsh (a : Nat) (d : Word) (s : State) : (writeWord a d s).tsh = s.tsh := rfl
@[simp] theorem writeWord_af (a : Nat) (d : Word) (s : State) : (writeWord a d s).af = s.af := rfl
@[simp] theorem writeWord_pes (a : Nat) (d : Word) (s : State) : (writeWord a d s).pes = s.pes := rfl
@[simp] theorem writeWord_sinkLog (a : Nat) (d : Word) (s : State) : (writeWord a d s).sinkLog = s.sinkLog := rfl
@[simp] theorem writeWord_asmCap (a : Nat) (d : Word) (s : State) : (writeWord a d s).asmCap = s.asmCap := rfl
@[simp] theorem writeWord_hostProgram (a : Nat) (d : Word) (s : State) : (writeWord a d s).hostProgram = s.hostProgram := rfl
@[simp] theorem writeWord_hostReads (a : Nat) (d : Word) (s : State) : (writeWord a d s).hostReads = s.hostReads := rfl

/-! ### bufClear -/

@[simp] theorem bufClear_pkt (s : State) : (bufClear s).pkt = s.pkt := rfl
@[simp] theorem bufClear_config (s : State) : (bufClear s).config = s.config := rfl
@[simp] theorem bufClear_fsm (s : State) : (bufClear s).fsm = s.fsm := rfl
@[simp] theorem bufClear_lastCc (s : State) : (bufClear s).lastCc = s.lastCc := rfl
@[simp] theorem bufClear_trackedPid (s : State) : (bufClear s).trackedPid = s.trackedPid := rfl
@[simp] theorem bufClear_asmBuf (s : State) : (bufClear s).asmBuf = [] := rfl
@[simp] theorem bufClear_result (s : State) : (bufClear s).result = s.result := rfl
@[simp] theorem bufClear_cmdErr (s : State) : (bufClear s).cmdErr = s.cmdErr := rfl
@[simp] theorem bufClear_busErr (s : State) : (bufClear s).busErr = s.busErr := rfl
@[simp] theorem bufClear_sinkLen (s : State) : (bufClear s).sinkLen = s.sinkLen := rfl
@[simp] theorem bufClear_tsh (s : State) : (bufClear s).tsh = s.tsh := rfl
@[simp] theorem bufClear_af (s : State) : (bufClear s).af = s.af := rfl
@[simp] theorem bufClear_pes (s : State) : (bufClear s).pes = s.pes := rfl
@[simp] theorem bufClear_sinkLog (s : State) : (bufClear s).sinkLog = s.sinkLog := rfl
@[simp] theorem bufClear_asmCap (s : State) : (bufClear s).asmCap = s.asmCap := rfl
@[simp] theorem bufClear_hostProgram (s : State) : (bufClear s).hostProgram = s.hostProgram := rfl
@[simp] theorem bufClear_hostReads (s : State) : (bufClear s).hostReads = s.hostReads := rfl

/-! ### bufAppend -/

@[simp] theorem bufAppend_pkt (p : Bytes) (lo hi : Nat) (s : State) : (bufAppend p lo hi s).pkt = s.pkt := rfl
@[simp] theorem bufAppend_config (p : Bytes) (lo hi : Nat) (s : State) : (bufAppend p lo hi s).config = s.config := rfl
@[simp] theorem bufAppend_fsm (p : Bytes) (lo hi : Nat) (s : State) : (bufAppend p lo hi s).fsm = s.fsm := rfl
@[simp] theorem bufAppend_lastCc (p : Bytes) (lo hi : Nat) (s : State) : (bufAppend p lo hi s).lastCc = s.lastCc := rfl
@[simp] theorem bufAppend_trackedPid (p : Bytes) (lo hi : Nat) (s : State) : (bufAppend p lo hi s).trackedPid = s.trackedPid := rfl
@[simp] theorem bufAppend_asmBuf (p : Bytes) (lo hi : Nat) (s : State) : (bufAppend p lo hi s).asmBuf = s.asmBuf ++ slice p lo hi := rfl
@[simp] theorem bufAppend_result (p : Bytes) (lo hi : Nat) (s : State) : (bufAppend p lo hi s).result = { s.result with appended := BitVec.ofNat 8 (hi - lo) } := rfl
@[simp] theorem bufAppend_cmdErr (p : Bytes) (lo hi : Nat) (s : State) : (bufAppend p lo hi s).cmdErr = s.cmdErr := rfl
@[simp] theorem bufAppend_busErr (p : Bytes) (lo hi : Nat) (s : State) : (bufAppend p lo hi s).busErr = s.busErr := rfl
@[simp] theorem bufAppend_sinkLen (p : Bytes) (lo hi : Nat) (s : State) : (bufAppend p lo hi s).sinkLen = s.sinkLen := rfl
@[simp] theorem bufAppend_tsh (p : Bytes) (lo hi : Nat) (s : State) : (bufAppend p lo hi s).tsh = s.tsh := rfl
@[simp] theorem bufAppend_af (p : Bytes) (lo hi : Nat) (s : State) : (bufAppend p lo hi s).af = s.af := rfl
@[simp] theorem bufAppend_pes (p : Bytes) (lo hi : Nat) (s : State) : (bufAppend p lo hi s).pes = s.pes := rfl
@[simp] theorem bufAppend_sinkLog (p : Bytes) (lo hi : Nat) (s : State) : (bufAppend p lo hi s).sinkLog = s.sinkLog := rfl
@[simp] theorem bufAppend_asmCap (p : Bytes) (lo hi : Nat) (s : State) : (bufAppend p lo hi s).asmCap = s.asmCap := rfl
@[simp] theorem bufAppend_hostProgram (p : Bytes) (lo hi : Nat) (s : State) : (bufAppend p lo hi s).hostProgram = s.hostProgram := rfl
@[simp] theorem bufAppend_hostReads (p : Bytes) (lo hi : Nat) (s : State) : (bufAppend p lo hi s).hostReads = s.hostReads := rfl

/-! ### sinkWrite -/

@[simp] theorem sinkWrite_pkt (s : State) : (sinkWrite s).pkt = s.pkt := rfl
@[simp] theorem sinkWrite_config (s : State) : (sinkWrite s).config = s.config := rfl
@[simp] theorem sinkWrite_fsm (s : State) : (sinkWrite s).fsm = s.fsm := rfl
@[simp] theorem sinkWrite_lastCc (s : State) : (sinkWrite s).lastCc = s.lastCc := rfl
@[simp] theorem sinkWrite_trackedPid (s : State) : (sinkWrite s).trackedPid = s.trackedPid := rfl
@[simp] theorem sinkWrite_asmBuf (s : State) : (sinkWrite s).asmBuf = s.asmBuf := rfl
@[simp] theorem sinkWrite_result (s : State) : (sinkWrite s).result = { s.result with sinkWritten := true } := rfl
@[simp] theorem sinkWrite_cmdErr (s : State) : (sinkWrite s).cmdErr = s.cmdErr := rfl
@[simp] theorem sinkWrite_busErr (s : State) : (sinkWrite s).busErr = s.busErr := rfl
@[simp] theorem sinkWrite_sinkLen (s : State) : (sinkWrite s).sinkLen = BitVec.ofNat 32 s.asmBuf.length := rfl
@[simp] theorem sinkWrite_tsh (s : State) : (sinkWrite s).tsh = s.tsh := rfl
@[simp] theorem sinkWrite_af (s : State) : (sinkWrite s).af = s.af := rfl
@[simp] theorem sinkWrite_pes (s : State) : (sinkWrite s).pes = s.pes := rfl
@[simp] theorem sinkWrite_sinkLog (s : State) : (sinkWrite s).sinkLog = s.sinkLog ++ [s.asmBuf] := rfl
@[simp] theorem sinkWrite_asmCap (s : State) : (sinkWrite s).asmCap = s.asmCap := rfl
@[simp] theorem sinkWrite_hostProgram (s : State) : (sinkWrite s).hostProgram = s.hostProgram := rfl
@[simp] theorem sinkWrite_hostReads (s : State) : (sinkWrite s).hostReads = s.hostReads := rfl

/-! ### setFsm -/

@[simp] theorem setFsm_pkt (f : Fsm) (s : State) : (setFsm f s).pkt = s.pkt := rfl
@[simp] theorem setFsm_config (f : Fsm) (s : State) : (setFsm f s).config = s.config := rfl
@[simp] theorem setFsm_fsm (f : Fsm) (s : State) : (setFsm f s).fsm = f := rfl
@[simp] theorem setFsm_lastCc (f : Fsm) (s : State) : (setFsm f s).lastCc = s.lastCc := rfl
@[simp] theorem setFsm_trackedPid (f : Fsm) (s : State) : (setFsm f s).trackedPid = s.trackedPid := rfl
@[simp] theorem setFsm_asmBuf (f : Fsm) (s : State) : (setFsm f s).asmBuf = s.asmBuf := rfl
@[simp] theorem setFsm_result (f : Fsm) (s : State) : (setFsm f s).result = s.result := rfl
@[simp] theorem setFsm_cmdErr (f : Fsm) (s : State) : (setFsm f s).cmdErr = s.cmdErr := rfl
@[simp] theorem setFsm_busErr (f : Fsm) (s : State) : (setFsm f s).busErr = s.busErr := rfl
@[simp] theorem setFsm_sinkLen (f : Fsm) (s : State) : (setFsm f s).sinkLen = s.sinkLen := rfl
@[simp] theorem setFsm_tsh (f : Fsm) (s : State) : (setFsm f s).tsh = s.tsh := rfl
@[simp] theorem setFsm_af (f : Fsm) (s : State) : (setFsm f s).af = s.af := rfl
@[simp] theorem setFsm_pes (f : Fsm) (s : State) : (setFsm f s).pes = s.pes := rfl
@[simp] theorem setFsm_sinkLog (f : Fsm) (s : State) : (setFsm f s).sinkLog = s.sinkLog := rfl
@[simp] theorem setFsm_asmCap (f : Fsm) (s : State) : (setFsm f s).asmCap = s.asmCap := rfl
@[simp] theorem setFsm_hostProgram (f : Fsm) (s : State) : (setFsm f s).hostProgram = s.hostProgram := rfl
@[simp] theorem setFsm_hostReads (f : Fsm) (s : State) : (setFsm f s).hostReads = s.hostReads := rfl

/-! ### recordCc -/

@[simp] theorem recordCc_pkt (cc : BitVec 4) (s : State) : (recordCc cc s).pkt = s.pkt := rfl
@[simp] theorem recordCc_config (cc : BitVec 4) (s : State) : (recordCc cc s).config = s.config := rfl
@[simp] theorem recordCc_fsm (cc : BitVec 4) (s : State) : (recordCc cc s).fsm = s.fsm := rfl
@[simp] theorem recordCc_lastCc (cc : BitVec 4) (s : State) : (recordCc cc s).lastCc = some cc := rfl
@[simp] theorem recordCc_trackedPid (cc : BitVec 4) (s : State) : (recordCc cc s).trackedPid = s.trackedPid := rfl
@[simp] theorem recordCc_asmBuf (cc : BitVec 4) (s : State) : (recordCc cc s).asmBuf = s.asmBuf := rfl
@[simp] theorem recordCc_result (cc : BitVec 4) (s : State) : (recordCc cc s).result = s.result := rfl
@[simp] theorem recordCc_cmdErr (cc : BitVec 4) (s : State) : (recordCc cc s).cmdErr = s.cmdErr := rfl
@[simp] theorem recordCc_busErr (cc : BitVec 4) (s : State) : (recordCc cc s).busErr = s.busErr := rfl
@[simp] theorem recordCc_sinkLen (cc : BitVec 4) (s : State) : (recordCc cc s).sinkLen = s.sinkLen := rfl
@[simp] theorem recordCc_tsh (cc : BitVec 4) (s : State) : (recordCc cc s).tsh = s.tsh := rfl
@[simp] theorem recordCc_af (cc : BitVec 4) (s : State) : (recordCc cc s).af = s.af := rfl
@[simp] theorem recordCc_pes (cc : BitVec 4) (s : State) : (recordCc cc s).pes = s.pes := rfl
@[simp] theorem recordCc_sinkLog (cc : BitVec 4) (s : State) : (recordCc cc s).sinkLog = s.sinkLog := rfl
@[simp] theorem recordCc_asmCap (cc : BitVec 4) (s : State) : (recordCc cc s).asmCap = s.asmCap := rfl
@[simp] theorem recordCc_hostProgram (cc : BitVec 4) (s : State) : (recordCc cc s).hostProgram = s.hostProgram := rfl
@[simp] theorem recordCc_hostReads (cc : BitVec 4) (s : State) : (recordCc cc s).hostReads = s.hostReads := rfl

/-! ### retrack -/

@[simp] theorem retrack_pkt (pid : BitVec 13) (s : State) : (retrack pid s).pkt = s.pkt := by
  unfold retrack; split <;> rfl
@[simp] theorem retrack_config (pid : BitVec 13) (s : State) : (retrack pid s).config = s.config := by
  unfold retrack; split <;> rfl
@[simp] theorem retrack_fsm (pid : BitVec 13) (s : State) : (retrack pid s).fsm = s.fsm := by
  unfold retrack; split <;> rfl
@[simp] theorem retrack_lastCc (pid : BitVec 13) (s : State) : (retrack pid s).lastCc = s.lastCc := by
  unfold retrack; split <;> rfl
@[simp] theorem retrack_trackedPid (pid : BitVec 13) (s : State) : (retrack pid s).trackedPid = pid := by
  unfold retrack; split
  · simp_all
  · rfl
@[simp] theorem retrack_asmBuf (pid : BitVec 13) (s : State) : (retrack pid s).asmBuf = s.asmBuf := by
  unfold retrack; split <;> rfl
@[simp] theorem retrack_result (pid : BitVec 13) (s : State) : (retrack pid s).result = { s.result with unexpectedPid := s.result.unexpectedPid || decide (pid ≠ s.trackedPid) } := by
  unfold retrack; split <;> simp_all
@[simp] theorem retrack_cmdErr (pid : BitVec 13) (s : State) : (retrack pid s).cmdErr = s.cmdErr := by
  unfold retrack; split <;> rfl
@[simp] theorem retrack_busErr (pid : BitVec 13) (s : State) : (retrack pid s).busErr = s.busErr := by
  unfold retrack; split <;> rfl
@[simp] theorem retrack_sinkLen (pid : BitVec 13) (s : State) : (retrack pid s).sinkLen = s.sinkLen := by
  unfold retrack; split <;> rfl
@[simp] theorem retrack_tsh (pid : BitVec 13) (s : State) : (retrack pid s).tsh = s.tsh := by
  unfold retrack; split <;> rfl
@[simp] theorem retrack_af (pid : BitVec 13) (s : State) : (retrack pid s).af = s.af := by
  unfold retrack; split <;> rfl
@[simp] theorem retrack_pes (pid : BitVec 13) (s : State) : (retrack pid s).pes = s.pes := by
  unfold retrack; split <;> rfl
@[simp] theorem retrack_sinkLog (pid : BitVec 13) (s : State) : (retrack pid s).sinkLog = s.sinkLog := by
  unfold retrack; split <;> rfl
@[simp] theorem retrack_asmCap (pid : BitVec 13) (s : State) : (retrack pid s).asmCap = s.asmCap := by
  unfold retrack; split <;> rfl
@[simp] theorem retrack_hostProgram (pid : BitVec 13) (s : State) : (retrack pid s).hostProgram = s.hostProgram := by
  unfold retrack; split <;> rfl
@[simp] theorem retrack_hostReads (pid : BitVec 13) (s : State) : (retrack pid s).hostReads = s.hostReads := by
  unfold retrack; split <;> rfl

/-! ### setPes -/

@[simp] theorem setPes_pkt (b : PesBank) (s : State) : (setPes b s).pkt = s.pkt := rfl
@[simp] theorem setPes_config (b : PesBank) (s : State) : (setPes b s).config = s.config := rfl
@[simp] theorem setPes_fsm (b : PesBank) (s : State) : (setPes b s).fsm = s.fsm := rfl
@[simp] theorem setPes_lastCc (b : PesBank) (s : State) : (setPes b s).lastCc = s.lastCc := rfl
@[simp] theorem setPes_trackedPid (b : PesBank) (s : State) : (setPes b s).trackedPid = s.trackedPid := rfl
@[simp] theorem setPes_asmBuf (b : PesBank) (s : State) : (setPes b s).asmBuf = s.asmBuf := rfl
@[simp] theorem setPes_result (b : PesBank) (s : State) : (setPes b s).result = s.result := rfl
@[simp] theorem setPes_cmdErr (b : PesBank) (s : State) : (setPes b s).cmdErr = s.cmdErr := rfl
@[simp] theorem setPes_busErr (b : PesBank) (s : State) : (setPes b s).busErr = s.busErr := rfl
@[simp] theorem setPes_sinkLen (b : PesBank) (s : State) : (setPes b s).sinkLen = s.sinkLen := rfl
@[simp] theorem setPes_tsh (b : PesBank) (s : State) : (setPes b s).tsh = s.tsh := rfl
@[simp] theorem setPes_af (b : PesBank) (s : State) : (setPes b s).af = s.af := rfl
@[simp] theorem setPes_pes (b : PesBank) (s : State) : (setPes b s).pes = b := rfl
@[simp] theorem setPes_sinkLog (b : PesBank) (s : State) : (setPes b s).sinkLog = s.sinkLog := rfl
@[simp] theorem setPes_asmCap (b : PesBank) (s : State) : (setPes b s).asmCap = s.asmCap := rfl
@[simp] theorem setPes_hostProgram (b : PesBank) (s : State) : (setPes b s).hostProgram = s.hostProgram := rfl
@[simp] theorem setPes_hostReads (b : PesBank) (s : State) : (setPes b s).hostReads = s.hostReads := rfl

/-! ### finish -/

@[simp] theorem finish_pkt (code : Code) (cause : Cause) (s : State) : (finish code cause s).pkt = s.pkt := rfl
@[simp] theorem finish_config (code : Code) (cause : Cause) (s : State) : (finish code cause s).config = s.config := rfl
@[simp] theorem finish_fsm (code : Code) (cause : Cause) (s : State) : (finish code cause s).fsm = s.fsm := rfl
@[simp] theorem finish_lastCc (code : Code) (cause : Cause) (s : State) : (finish code cause s).lastCc = s.lastCc := rfl
@[simp] theorem finish_trackedPid (code : Code) (cause : Cause) (s : State) : (finish code cause s).trackedPid = s.trackedPid := rfl
@[simp] theorem finish_asmBuf (code : Code) (cause : Cause) (s : State) : (finish code cause s).asmBuf = s.asmBuf := rfl
@[simp] theorem finish_result (code : Code) (cause : Cause) (s : State) : (finish code cause s).result = { s.result with code := code, cause := cause } := rfl
@[simp] theorem finish_cmdErr (code : Code) (cause : Cause) (s : State) : (finish code cause s).cmdErr = s.cmdErr := rfl
@[simp] theorem finish_busErr (code : Code) (cause : Cause) (s : State) : (finish code cause s).busErr = s.busErr := rfl
@[simp] theorem finish_sinkLen (code : Code) (cause : Cause) (s : State) : (finish code cause s).sinkLen = s.sinkLen := rfl
@[simp] theorem finish_tsh (code : Code) (cause : Cause) (s : State) : (finish code cause s).tsh = s.tsh := rfl
@[simp] theorem finish_af (code : Code) (cause : Cause) (s : State) : (finish code cause s).af = s.af := rfl
@[simp] theorem finish_pes (code : Code) (cause : Cause) (s : State) : (finish code cause s).pes = s.pes := rfl
@[simp] theorem finish_sinkLog (code : Code) (cause : Cause) (s : State) : (finish code cause s).sinkLog = s.sinkLog := rfl
@[simp] theorem finish_asmCap (code : Code) (cause : Cause) (s : State) : (finish code cause s).asmCap = s.asmCap := rfl
@[simp] theorem finish_hostProgram (code : Code) (cause : Cause) (s : State) : (finish code cause s).hostProgram = s.hostProgram := rfl
@[simp] theorem finish_hostReads (code : Code) (cause : Cause) (s : State) : (finish code cause s).hostReads = s.hostReads := rfl

/-! ### lose -/

@[simp] theorem lose_pkt (cause : Cause) (s : State) : (lose cause s).pkt = s.pkt := rfl
@[simp] theorem lose_config (cause : Cause) (s : State) : (lose cause s).config = s.config := rfl
@[simp] theorem lose_fsm (cause : Cause) (s : State) : (lose cause s).fsm = .idle := rfl
@[simp] theorem lose_lastCc (cause : Cause) (s : State) : (lose cause s).lastCc = s.lastCc := rfl
@[simp] theorem lose_trackedPid (cause : Cause) (s : State) : (lose cause s).trackedPid = s.trackedPid := rfl
@[simp] theorem lose_asmBuf (cause : Cause) (s : State) : (lose cause s).asmBuf = [] := rfl
@[simp] theorem lose_result (cause : Cause) (s : State) : (lose cause s).result = { s.result with code := .lost, cause := cause } := rfl
@[simp] theorem lose_cmdErr (cause : Cause) (s : State) : (lose cause s).cmdErr = s.cmdErr := rfl
@[simp] theorem lose_busErr (cause : Cause) (s : State) : (lose cause s).busErr = s.busErr := rfl
@[simp] theorem lose_sinkLen (cause : Cause) (s : State) : (lose cause s).sinkLen = s.sinkLen := rfl
@[simp] theorem lose_tsh (cause : Cause) (s : State) : (lose cause s).tsh = s.tsh := rfl
@[simp] theorem lose_af (cause : Cause) (s : State) : (lose cause s).af = s.af := rfl
@[simp] theorem lose_pes (cause : Cause) (s : State) : (lose cause s).pes = s.pes := rfl
@[simp] theorem lose_sinkLog (cause : Cause) (s : State) : (lose cause s).sinkLog = s.sinkLog := rfl
@[simp] theorem lose_asmCap (cause : Cause) (s : State) : (lose cause s).asmCap = s.asmCap := rfl
@[simp] theorem lose_hostProgram (cause : Cause) (s : State) : (lose cause s).hostProgram = s.hostProgram := rfl
@[simp] theorem lose_hostReads (cause : Cause) (s : State) : (lose cause s).hostReads = s.hostReads := rfl

/-! ### raiseBusError -/

@[simp] theorem raiseBusError_pkt (s : State) : (raiseBusError s).pkt = s.pkt := rfl
@[simp] theorem raiseBusError_config (s : State) : (raiseBusError s).config = s.config := rfl
@[simp] theorem raiseBusError_fsm (s : State) : (raiseBusError s).fsm = s.fsm := rfl
@[simp] theorem raiseBusError_lastCc (s : State) : (raiseBusError s).lastCc = s.lastCc := rfl
@[simp] theorem raiseBusError_trackedPid (s : State) : (raiseBusError s).trackedPid = s.trackedPid := rfl
@[simp] theorem raiseBusError_asmBuf (s : State) : (raiseBusError s).asmBuf = s.asmBuf := rfl
@[simp] theorem raiseBusError_result (s : State) : (raiseBusError s).result = s.result := rfl
@[simp] theorem raiseBusError_cmdErr (s : State) : (raiseBusError s).cmdErr = s.cmdErr := rfl
@[simp] theorem raiseBusError_busErr (s : State) : (raiseBusError s).busErr = true := rfl
@[simp] theorem raiseBusError_sinkLen (s : State) : (raiseBusError s).sinkLen = s.sinkLen := rfl
@[simp] theorem raiseBusError_tsh (s : State) : (raiseBusError s).tsh = s.tsh := rfl
@[simp] theorem raiseBusError_af (s : State) : (raiseBusError s).af = s.af := rfl
@[simp] theorem raiseBusError_pes (s : State) : (raiseBusError s).pes = s.pes := rfl
@[simp] theorem raiseBusError_sinkLog (s : State) : (raiseBusError s).sinkLog = s.sinkLog := rfl
@[simp] theorem raiseBusError_asmCap (s : State) : (raiseBusError s).asmCap = s.asmCap := rfl
@[simp] theorem raiseBusError_hostProgram (s : State) : (raiseBusError s).hostProgram = s.hostProgram := rfl
@[simp] theorem raiseBusError_hostReads (s : State) : (raiseBusError s).hostReads = s.hostReads := rfl

/-! ### raiseCommandError -/

@[simp] theorem raiseCommandError_pkt (s : State) : (raiseCommandError s).pkt = s.pkt := rfl
@[simp] theorem raiseCommandError_config (s : State) : (raiseCommandError s).config = s.config := rfl
@[simp] theorem raiseCommandError_fsm (s : State) : (raiseCommandError s).fsm = s.fsm := rfl
@[simp] theorem raiseCommandError_lastCc (s : State) : (raiseCommandError s).lastCc = s.lastCc := rfl
@[simp] theorem raiseCommandError_trackedPid (s : State) : (raiseCommandError s).trackedPid = s.trackedPid := rfl
@[simp] theorem raiseCommandError_asmBuf (s : State) : (raiseCommandError s).asmBuf = s.asmBuf := rfl
@[simp] theorem raiseCommandError_result (s : State) : (raiseCommandError s).result = s.result := rfl
@[simp] theorem raiseCommandError_cmdErr (s : State) : (raiseCommandError s).cmdErr = true := rfl
@[simp] theorem raiseCommandError_busErr (s : State) : (raiseCommandError s).busErr = s.busErr := rfl
@[simp] theorem raiseCommandError_sinkLen (s : State) : (raiseCommandError s).sinkLen = s.sinkLen := rfl
@[simp] theorem raiseCommandError_tsh (s : State) : (raiseCommandError s).tsh = s.tsh := rfl
@[simp] theorem raiseCommandError_af (s : State) : (raiseCommandError s).af = s.af := rfl
@[simp] theorem raiseCommandError_pes (s : State) : (raiseCommandError s).pes = s.pes := rfl
@[simp] theorem raiseCommandError_sinkLog (s : State) : (raiseCommandError s).sinkLog = s.sinkLog := rfl
@[simp] theorem raiseCommandError_asmCap (s : State) : (raiseCommandError s).asmCap = s.asmCap := rfl
@[simp] theorem raiseCommandError_hostProgram (s : State) : (raiseCommandError s).hostProgram = s.hostProgram := rfl
@[simp] theorem raiseCommandError_hostReads (s : State) : (raiseCommandError s).hostReads = s.hostReads := rfl

/-! ### returnRead -/

@[simp] theorem returnRead_pkt (v : HostRead) (s : State) : (returnRead v s).pkt = s.pkt := rfl
@[simp] theorem returnRead_config (v : HostRead) (s : State) : (returnRead v s).config = s.config := rfl
@[simp] theorem returnRead_fsm (v : HostRead) (s : State) : (returnRead v s).fsm = s.fsm := rfl
@[simp] theorem returnRead_lastCc (v : HostRead) (s : State) : (returnRead v s).lastCc = s.lastCc := rfl
@[simp] theorem returnRead_trackedPid (v : HostRead) (s : State) : (returnRead v s).trackedPid = s.trackedPid := rfl
@[simp] theorem returnRead_asmBuf (v : HostRead) (s : State) : (returnRead v s).asmBuf = s.asmBuf := rfl
@[simp] theorem returnRead_result (v : HostRead) (s : State) : (returnRead v s).result = s.result := rfl
@[simp] theorem returnRead_cmdErr (v : HostRead) (s : State) : (returnRead v s).cmdErr = s.cmdErr := rfl
@[simp] theorem returnRead_busErr (v : HostRead) (s : State) : (returnRead v s).busErr = s.busErr := rfl
@[simp] theorem returnRead_sinkLen (v : HostRead) (s : State) : (returnRead v s).sinkLen = s.sinkLen := rfl
@[simp] theorem returnRead_tsh (v : HostRead) (s : State) : (returnRead v s).tsh = s.tsh := rfl
@[simp] theorem returnRead_af (v : HostRead) (s : State) : (returnRead v s).af = s.af := rfl
@[simp] theorem returnRead_pes (v : HostRead) (s : State) : (returnRead v s).pes = s.pes := rfl
@[simp] theorem returnRead_sinkLog (v : HostRead) (s : State) : (returnRead v s).sinkLog = s.sinkLog := rfl
@[simp] theorem returnRead_asmCap (v : HostRead) (s : State) : (returnRead v s).asmCap = s.asmCap := rfl
@[simp] theorem returnRead_hostProgram (v : HostRead) (s : State) : (returnRead v s).hostProgram = s.hostProgram := rfl
@[simp] theorem returnRead_hostReads (v : HostRead) (s : State) : (returnRead v s).hostReads = s.hostReads ++ [v] := rfl

/-! ### setConfig -/

@[simp] theorem setConfig_pkt (c : ConfigReg) (s : State) : (setConfig c s).pkt = s.pkt := rfl
@[simp] theorem setConfig_config (c : ConfigReg) (s : State) : (setConfig c s).config = c := rfl
@[simp] theorem setConfig_fsm (c : ConfigReg) (s : State) : (setConfig c s).fsm = s.fsm := rfl
@[simp] theorem setConfig_lastCc (c : ConfigReg) (s : State) : (setConfig c s).lastCc = s.lastCc := rfl
@[simp] theorem setConfig_trackedPid (c : ConfigReg) (s : State) : (setConfig c s).trackedPid = s.trackedPid := rfl
@[simp] theorem setConfig_asmBuf (c : ConfigReg) (s : State) : (setConfig c s).asmBuf = s.asmBuf := rfl
@[simp] theorem setConfig_result (c : ConfigReg) (s : State) : (setConfig c s).result = s.result := rfl
@[simp] theorem setConfig_cmdErr (c : ConfigReg) (s : State) : (setConfig c s).cmdErr = s.cmdErr := rfl
@[simp] theorem setConfig_busErr (c : ConfigReg) (s : State) : (setConfig c s).busErr = s.busErr := rfl
@[simp] theorem setConfig_sinkLen (c : ConfigReg) (s : State) : (setConfig c s).sinkLen = s.sinkLen := rfl
@[simp] theorem setConfig_tsh (c : ConfigReg) (s : State) : (setConfig c s).tsh = s.tsh := rfl
@[simp] theorem setConfig_af (c : ConfigReg) (s : State) : (setConfig c s).af = s.af := rfl
@[simp] theorem setConfig_pes (c : ConfigReg) (s : State) : (setConfig c s).pes = s.pes := rfl
@[simp] theorem setConfig_sinkLog (c : ConfigReg) (s : State) : (setConfig c s).sinkLog = s.sinkLog := rfl
@[simp] theorem setConfig_asmCap (c : ConfigReg) (s : State) : (setConfig c s).asmCap = s.asmCap := rfl
@[simp] theorem setConfig_hostProgram (c : ConfigReg) (s : State) : (setConfig c s).hostProgram = s.hostProgram := rfl
@[simp] theorem setConfig_hostReads (c : ConfigReg) (s : State) : (setConfig c s).hostReads = s.hostReads := rfl

/-! ### initialise -/

@[simp] theorem initialise_pkt (s : State) : (initialise s).pkt = s.pkt := rfl
@[simp] theorem initialise_config (s : State) : (initialise s).config = s.config := rfl
@[simp] theorem initialise_fsm (s : State) : (initialise s).fsm = .idle := rfl
@[simp] theorem initialise_lastCc (s : State) : (initialise s).lastCc = none := rfl
@[simp] theorem initialise_trackedPid (s : State) : (initialise s).trackedPid = s.config.pid := rfl
@[simp] theorem initialise_asmBuf (s : State) : (initialise s).asmBuf = [] := rfl
@[simp] theorem initialise_result (s : State) : (initialise s).result = ResultReg.zero := rfl
@[simp] theorem initialise_cmdErr (s : State) : (initialise s).cmdErr = false := rfl
@[simp] theorem initialise_busErr (s : State) : (initialise s).busErr = false := rfl
@[simp] theorem initialise_sinkLen (s : State) : (initialise s).sinkLen = 0 := rfl
@[simp] theorem initialise_tsh (s : State) : (initialise s).tsh = TshBank.zero := rfl
@[simp] theorem initialise_af (s : State) : (initialise s).af = AfBank.zero := rfl
@[simp] theorem initialise_pes (s : State) : (initialise s).pes = PesBank.zero := rfl
@[simp] theorem initialise_sinkLog (s : State) : (initialise s).sinkLog = s.sinkLog := rfl
@[simp] theorem initialise_asmCap (s : State) : (initialise s).asmCap = s.asmCap := rfl
@[simp] theorem initialise_hostProgram (s : State) : (initialise s).hostProgram = s.hostProgram := rfl
@[simp] theorem initialise_hostReads (s : State) : (initialise s).hostReads = s.hostReads := rfl

/-! ### absorbFront -/

@[simp] theorem absorbFront_pkt (p : Bytes) (s : State) : (absorbFront p s).pkt = s.pkt := rfl
@[simp] theorem absorbFront_config (p : Bytes) (s : State) : (absorbFront p s).config = s.config := rfl
@[simp] theorem absorbFront_fsm (p : Bytes) (s : State) : (absorbFront p s).fsm = s.fsm := rfl
@[simp] theorem absorbFront_lastCc (p : Bytes) (s : State) : (absorbFront p s).lastCc = s.lastCc := rfl
@[simp] theorem absorbFront_trackedPid (p : Bytes) (s : State) : (absorbFront p s).trackedPid = s.trackedPid := rfl
@[simp] theorem absorbFront_asmBuf (p : Bytes) (s : State) : (absorbFront p s).asmBuf = s.asmBuf := rfl
@[simp] theorem absorbFront_result (p : Bytes) (s : State) : (absorbFront p s).result = { s.result with unexpectedPid := false, sinkWritten := false, appended := 0 } := rfl
@[simp] theorem absorbFront_cmdErr (p : Bytes) (s : State) : (absorbFront p s).cmdErr = s.cmdErr := rfl
@[simp] theorem absorbFront_busErr (p : Bytes) (s : State) : (absorbFront p s).busErr = s.busErr := rfl
@[simp] theorem absorbFront_sinkLen (p : Bytes) (s : State) : (absorbFront p s).sinkLen = s.sinkLen := rfl
@[simp] theorem absorbFront_tsh (p : Bytes) (s : State) : (absorbFront p s).tsh = tshParse p := rfl
@[simp] theorem absorbFront_af (p : Bytes) (s : State) : (absorbFront p s).af = if (tshParse p).hasAf then afParse p else s.af := rfl
@[simp] theorem absorbFront_pes (p : Bytes) (s : State) : (absorbFront p s).pes = s.pes := rfl
@[simp] theorem absorbFront_sinkLog (p : Bytes) (s : State) : (absorbFront p s).sinkLog = s.sinkLog := rfl
@[simp] theorem absorbFront_asmCap (p : Bytes) (s : State) : (absorbFront p s).asmCap = s.asmCap := rfl
@[simp] theorem absorbFront_hostProgram (p : Bytes) (s : State) : (absorbFront p s).hostProgram = s.hostProgram := rfl
@[simp] theorem absorbFront_hostReads (p : Bytes) (s : State) : (absorbFront p s).hostReads = s.hostReads := rfl

end Sys2Proof.Machine
end

