-- ==== Sys2Proof/Laws/Decode.lean ====
section
/-! SUPPORT. What the decoder and the encoder do, said once. -/

namespace Sys2Proof

/-- Two words are equal when all their bits are. -/
theorem BitVec32.ext_bits {v w : Word} (h : ∀ i, i < 32 → v.getLsbD i = w.getLsbD i) : v = w :=
  BitVec.eq_of_getLsbD_eq fun i hi => h i hi

/-- A word masked by one bit is that bit. -/
theorem and_twoPow_eq (w : Word) (k : Nat) (hk : k < 32) :
    w &&& BitVec.twoPow 32 k = BitVec.twoPow 32 k ↔ w.getLsbD k = true := by
  rw [BitVec.and_twoPow]
  cases h : w.getLsbD k with
  | true => simp
  | false =>
    simp only [Bool.false_eq_true, if_false, iff_false]
    intro h0
    have := congrArg (fun v : Word => v.getLsbD k) h0
    simp [hk] at this

/-- The START mask selects on W[22] (R89). -/
theorem startMask_iff (w : Word) : w &&& 0x00400000#32 = 0x00400000#32 ↔ w.getLsbD 22 = true :=
  and_twoPow_eq w 22 (by omega)

/-- Two bits of a word, as its value under the non-start mask. -/
theorem nonStartMask_eq (w : Word) :
    w &&& 0x00400020#32 =
      (if w.getLsbD 22 then 0x00400000#32 else 0#32) ||| (if w.getLsbD 5 then 0x00000020#32 else 0#32) := by
  have h : (0x00400020#32 : Word) = BitVec.twoPow 32 22 ||| BitVec.twoPow 32 5 := by decide
  rw [h, BitVec.and_or_distrib_left, BitVec.and_twoPow, BitVec.and_twoPow]
  rfl

/-- The CONTINUATION mask selects on W[22] = 0 and W[5] = 0 (R89). -/
theorem continuationMask_iff (w : Word) :
    w &&& 0x00400020#32 = 0x00000000#32 ↔ w.getLsbD 22 = false ∧ w.getLsbD 5 = false := by
  rw [nonStartMask_eq]
  cases w.getLsbD 22 <;> cases w.getLsbD 5 <;> decide

/-- The COMPLETION mask selects on W[22] = 0 and W[5] = 1 (R89). -/
theorem completionMask_iff (w : Word) :
    w &&& 0x00400020#32 = 0x00000020#32 ↔ w.getLsbD 22 = false ∧ w.getLsbD 5 = true := by
  rw [nonStartMask_eq]
  cases w.getLsbD 22 <;> cases w.getLsbD 5 <;> decide

/-- The class of a header word, by its two bits. -/
theorem packetClass_eq (w : Word) :
    packetClass w = if w.getLsbD 22 then .start else if w.getLsbD 5 then .completion else .continuation := by
  unfold packetClass
  simp only [startMask_iff, continuationMask_iff]
  cases w.getLsbD 22 <;> cases w.getLsbD 5 <;> rfl

/-- HAS_AF is AFC[1] (R116). -/
theorem TsHeader.hasAf_eq (h : TsHeader) : h.hasAf = h.afc.getLsbD 1 := by
  have key : ∀ a : BitVec 2, (a == 2 || a == 3) = a.getLsbD 1 := by decide
  exact key h.afc

/-- HAS_AF of a header word is W[5] (R82). -/
@[simp] theorem headerOf_hasAf (w : Word) : (headerOf w).hasAf = w.getLsbD 5 := by
  simp [TsHeader.hasAf_eq, headerOf]

/-- What the class of a header word says of its bits. -/
theorem decode_tsh (w : Word) :
    decode (.tsh w) = .ok (if w.getLsbD 22 then .start (headerOf w)
      else if w.getLsbD 5 then .completion (headerOf w) else .continuation (headerOf w)) := by
  unfold decode
  simp only [packetClass_eq]
  cases w.getLsbD 22 <;> cases w.getLsbD 5 <;> rfl

/-- The commands (R88): one inversion of the command decoder. -/
theorem commandOf_cases (d : Word) :
    (d = 0 ∧ commandOf d = some .nop) ∨ (d = 1 ∧ commandOf d = some .init) ∨ (d = 2 ∧ commandOf d = some .absorb)
      ∨ (d ≠ 0 ∧ d ≠ 1 ∧ d ≠ 2 ∧ commandOf d = none) := by
  unfold commandOf
  by_cases h0 : d = 0
  · exact .inl ⟨h0, by simp [h0]⟩
  by_cases h1 : d = 1
  · exact .inr (.inl ⟨h1, by subst h1; decide⟩)
  by_cases h2 : d = 2
  · exact .inr (.inr (.inl ⟨h2, by subst h2; decide⟩))
  exact .inr (.inr (.inr ⟨h0, h1, h2, by simp_all⟩))

/-- A decoded line is one of the four transactions, with its header's bits. -/
theorem decodeLine_ok {l : BusLine} {i : Instr} (h : decodeLine l = .ok i) :
    l.header.extractLsb' 12 2 = 0#2 ∧
    ((l.header.getLsbD 15 = false ∧ l.header.getLsbD 14 = false ∧ l.data = none ∧ i = .rd8 (l.header.extractLsb' 0 12))
      ∨ (l.header.getLsbD 15 = false ∧ l.header.getLsbD 14 = true ∧ l.data = none ∧ i = .rd32 (l.header.extractLsb' 0 12))
      ∨ (l.header.getLsbD 15 = true ∧ l.header.getLsbD 14 = false ∧ ∃ d, l.data = some d ∧ d.extractLsb' 8 24 = 0#24
          ∧ i = .wr8 (l.header.extractLsb' 0 12) (d.extractLsb' 0 8))
      ∨ (l.header.getLsbD 15 = true ∧ l.header.getLsbD 14 = true ∧ ∃ d, l.data = some d
          ∧ i = .wr32 (l.header.extractLsb' 0 12) d)) := by
  unfold decodeLine at h
  split at h
  · cases h
  · rename_i h0
    refine ⟨by simpa using h0, ?_⟩
    dsimp only at h
    cases h15 : l.header.getLsbD 15 <;> cases h14 : l.header.getLsbD 14 <;> cases hd : l.data <;>
      simp only [h15, h14, hd] at h <;> (try (cases h; done))
    · cases h; simp
    · cases h; simp
    · rename_i d
      split at h
      · rename_i hz
        cases h
        exact .inr (.inr (.inl ⟨rfl, rfl, d, rfl, hz, rfl⟩))
      · cases h
    · rename_i d
      cases h
      exact .inr (.inr (.inr ⟨rfl, rfl, d, rfl, rfl⟩))

/-- The bits of a transaction's header: the address below bit 12, the kind's bits from there on (R90). -/
theorem busHeader_getLsbD (kind : BitVec 16) (a : Addr) (i : Nat) :
    (busHeader kind a).getLsbD i = (kind.getLsbD i || a.getLsbD i) := by
  simp only [busHeader, BitVec.getLsbD_or, BitVec.getLsbD_setWidth]
  by_cases hi : i < 16
  · simp [hi]
  · simp [hi, BitVec.getLsbD_of_ge a i (by omega)]

/-- The address a transaction's header carries (R90). -/
theorem busHeader_address (kind : BitVec 16) (a : Addr) (hk : kind.extractLsb' 0 12 = 0#12) :
    (busHeader kind a).extractLsb' 0 12 = a := by
  refine BitVec.eq_of_getLsbD_eq fun i hi => ?_
  have : kind.getLsbD i = false := by
    have := congrArg (fun v => BitVec.getLsbD v i) hk
    simpa [BitVec.getLsbD_extractLsb', hi] using this
  simp [busHeader_getLsbD, this, hi]

/-- The bits above the address of a transaction's header are its kind's (R90). -/
theorem busHeader_kind (kind : BitVec 16) (a : Addr) (i n : Nat) (hi : 12 ≤ i) :
    (busHeader kind a).extractLsb' i n = kind.extractLsb' i n := by
  refine BitVec.eq_of_getLsbD_eq fun k hk => ?_
  simp only [BitVec.getLsbD_extractLsb', busHeader_getLsbD, BitVec.getLsbD_of_ge a (i + k) (by omega),
    Bool.or_false]

/-- A bit of a transaction's header above its address is its kind's (R90). -/
theorem busHeader_bit (kind : BitVec 16) (a : Addr) {i : Nat} (hi : 12 ≤ i) :
    (busHeader kind a).getLsbD i = kind.getLsbD i := by
  rw [busHeader_getLsbD, BitVec.getLsbD_of_ge a i hi, Bool.or_false]

/-- The command line the host writes decodes to a WR32 to CMD (R96). -/
theorem decodeLine_command (d : Word) :
    decodeLine ⟨busHeader 0xC000#16 0x100#12, some d⟩ = .ok (.wr32 0x100#12 d) := by
  have hh : busHeader 0xC000#16 0x100#12 = 0xC100#16 := by decide
  simp [hh, decodeLine]

end Sys2Proof
end

