-- ==== Sys2Proof/Laws/Memory.lean ====
section
/-! SUPPORT. The laws of the packet buffer: what a write leaves to be read, and that every operation
keeps the canonical form. -/

namespace Sys2Proof.Machine

/-! ### Read after write -/

theorem Memory.read_of_lt (m : Memory) (lo a : Nat) (h : Memory.wfFrom lo m = true) (ha : a < lo) :
    m.read a = none := by
  induction m generalizing lo with
  | nil => rfl
  | cons e r ih =>
    obtain ⟨k, v⟩ := e
    simp only [Memory.wfFrom, Bool.and_eq_true, decide_eq_true_eq] at h
    have hk : k ≠ a := by omega
    simpa [Memory.read, hk] using ih (k + 1) h.2 (by omega)

@[simp] theorem Memory.read_write_same (m : Memory) (a : Nat) (b : Byte) : (m.write a b).read a = some b := by
  induction m with
  | nil => simp [Memory.write, Memory.read]
  | cons e r ih =>
    obtain ⟨k, v⟩ := e
    unfold Memory.write
    split
    · simp [Memory.read]
    · split
      · simp [Memory.read]
      · rename_i h
        simpa [Memory.read, h] using ih

theorem Memory.read_write_ne (m : Memory) {a c : Nat} (b : Byte) (h : c ≠ a) : (m.write a b).read c = m.read c := by
  induction m with
  | nil => simp [Memory.write, Memory.read, Ne.symm h]
  | cons e r ih =>
    obtain ⟨k, v⟩ := e
    unfold Memory.write
    split
    · simp [Memory.read, Ne.symm h]
    · split
      · rename_i hk
        subst hk
        simp [Memory.read, Ne.symm h]
      · simp only [Memory.read, ih]

theorem Memory.read_write (m : Memory) (a c : Nat) (b : Byte) :
    (m.write a b).read c = if c = a then some b else m.read c := by
  split
  · subst c; exact Memory.read_write_same m a b
  · exact Memory.read_write_ne m b ‹_›

/-- A run of bytes written at `a` reads back byte for byte, and every other offset is untouched. -/
theorem Memory.read_writeBytes (bs : Bytes) (m : Memory) (a c : Nat) :
    (m.writeBytes a bs).read c = if a ≤ c ∧ c < a + bs.length then bs[c - a]? else m.read c := by
  induction bs generalizing m a with
  | nil =>
    have : ¬ (a ≤ c ∧ c < a + ([] : Bytes).length) := by simp
    rw [if_neg this]; rfl
  | cons b r ih =>
    rw [Memory.writeBytes, ih, Memory.read_write]
    by_cases hc : c = a
    · subst hc
      simp
    · by_cases hin : a + 1 ≤ c ∧ c < a + 1 + r.length
      · have : a ≤ c ∧ c < a + (b :: r).length := by simp only [List.length_cons]; omega
        rw [if_pos hin, if_pos this, show c - a = (c - (a + 1)) + 1 by omega, List.getElem?_cons_succ]
      · have : ¬ (a ≤ c ∧ c < a + (b :: r).length) := by simp only [List.length_cons]; omega
        rw [if_neg hin, if_neg this, if_neg hc]

/-! ### The canonical form -/

theorem Memory.wfFrom_mono (m : Memory) {lo lo' : Nat} (h : Memory.wfFrom lo m = true) (hl : lo' ≤ lo) :
    Memory.wfFrom lo' m = true := by
  cases m with
  | nil => rfl
  | cons e r =>
    simp only [Memory.wfFrom, Bool.and_eq_true, decide_eq_true_eq] at h ⊢
    exact ⟨⟨by omega, h.1.2⟩, h.2⟩

theorem Memory.wfFrom_write (m : Memory) {lo a : Nat} (b : Byte) (h : Memory.wfFrom lo m = true) (hlo : lo ≤ a)
    (ha : a < Config.pktSize) : Memory.wfFrom lo (m.write a b) = true := by
  induction m generalizing lo with
  | nil => simp [Memory.write, Memory.wfFrom, hlo, ha]
  | cons e r ih =>
    obtain ⟨k, v⟩ := e
    simp only [Memory.wfFrom, Bool.and_eq_true, decide_eq_true_eq] at h
    unfold Memory.write
    split
    · simp only [Memory.wfFrom, Bool.and_eq_true, decide_eq_true_eq]
      exact ⟨⟨hlo, ha⟩, ⟨by omega, h.1.2⟩, h.2⟩
    · split
      · rename_i hk
        subst hk
        simp only [Memory.wfFrom, Bool.and_eq_true, decide_eq_true_eq]
        exact h
      · simp only [Memory.wfFrom, Bool.and_eq_true, decide_eq_true_eq]
        exact ⟨h.1, ih h.2 (by omega)⟩

/-- A write inside PKT keeps the canonical form. -/
theorem Memory.wf_write (m : Memory) {a : Nat} (b : Byte) (h : m.wf = true) (ha : a < Config.pktSize) :
    (m.write a b).wf = true := Memory.wfFrom_write m b h (Nat.zero_le a) ha

theorem Memory.wf_writeBytes (bs : Bytes) (m : Memory) {a : Nat} (h : m.wf = true)
    (ha : a + bs.length ≤ Config.pktSize) : (m.writeBytes a bs).wf = true := by
  induction bs generalizing m a with
  | nil => exact h
  | cons b r ih =>
    simp only [List.length_cons] at ha
    exact ih _ (Memory.wf_write m b h (by omega)) (by omega)

theorem Memory.wfFrom_ofBytes (bs : Bytes) {a : Nat} (ha : a + bs.length ≤ Config.pktSize) :
    Memory.wfFrom a (Memory.ofBytes a bs) = true := by
  induction bs generalizing a with
  | nil => rfl
  | cons b r ih =>
    simp only [List.length_cons] at ha
    simp only [Memory.ofBytes, Memory.wfFrom, Bool.and_eq_true, decide_eq_true_eq]
    exact ⟨⟨le_refl a, by omega⟩, ih (by omega)⟩

/-- A whole packet in the buffer is in canonical form. -/
theorem Memory.wf_ofBytes (bs : Bytes) (h : bs.length ≤ Config.pktSize) : (Memory.ofBytes 0 bs).wf = true :=
  Memory.wfFrom_ofBytes bs (by omega)

/-- Two canonical buffers that read alike are the same list. -/
theorem Memory.wfFrom_ext (m m' : Memory) {lo : Nat} (h : Memory.wfFrom lo m = true)
    (h' : Memory.wfFrom lo m' = true) (heq : ∀ a, m.read a = m'.read a) : m = m' := by
  induction m generalizing m' lo with
  | nil =>
    cases m' with
    | nil => rfl
    | cons e r => simpa [Memory.read] using heq e.1
  | cons e r ih =>
    obtain ⟨k, v⟩ := e
    cases m' with
    | nil => simpa [Memory.read] using heq k
    | cons e' r' =>
      obtain ⟨k', v'⟩ := e'
      simp only [Memory.wfFrom, Bool.and_eq_true, decide_eq_true_eq] at h h'
      have hr := Memory.read_of_lt r (k + 1) k h.2 (by omega)
      have hr' := Memory.read_of_lt r' (k' + 1) k' h'.2 (by omega)
      have hkk : k = k' := by
        by_contra hne
        rcases Nat.lt_or_gt_of_ne hne with hlt | hlt
        · have := heq k
          simp [Memory.read, Ne.symm hne, Memory.read_of_lt r' (k' + 1) k h'.2 (by omega)] at this
        · have := heq k'
          simp [Memory.read, hne, Memory.read_of_lt r (k + 1) k' h.2 (by omega)] at this
      subst hkk
      have hv : v = v' := by simpa [Memory.read] using heq k
      subst hv
      congr 1
      refine ih r' h.2 h'.2 fun a => ?_
      by_cases ha : k = a
      · subst ha; rw [hr, hr']
      · simpa [Memory.read, ha] using heq a

theorem Memory.ext_of_wf (m m' : Memory) (h : m.wf = true) (h' : m'.wf = true)
    (heq : ∀ a, m.read a = m'.read a) : m = m' := Memory.wfFrom_ext m m' h h' heq

/-! ### Reading several bytes -/

theorem Memory.readBytes_eq_some (m : Memory) (n a : Nat) (bs : Bytes) :
    m.readBytes a n = some bs ↔ bs.length = n ∧ ∀ i, i < n → m.read (a + i) = bs[i]? := by
  induction n generalizing a bs with
  | zero =>
    constructor
    · intro h
      simp only [Memory.readBytes, Option.some.injEq] at h
      subst h
      simp
    · rintro ⟨h, -⟩
      simp [Memory.readBytes, List.length_eq_zero_iff.mp h]
  | succ n ih =>
    constructor
    · intro h
      unfold Memory.readBytes at h
      split at h
      · rename_i b r hb hr
        simp only [Option.some.injEq] at h
        subst h
        obtain ⟨hl, hi⟩ := (ih (a + 1) r).mp hr
        refine ⟨by simp [hl], fun i hlt => ?_⟩
        cases i with
        | zero => simpa using hb
        | succ i => simpa [Nat.add_assoc, Nat.add_comm 1 i] using hi i (by omega)
      · cases h
    · rintro ⟨hl, hi⟩
      cases bs with
      | nil => simp at hl
      | cons b r =>
        have hb : m.read a = some b := by simpa using hi 0 (by omega)
        have hr : m.readBytes (a + 1) n = some r := by
          refine (ih (a + 1) r).mpr ⟨by simpa using hl, fun i hlt => ?_⟩
          simpa [Nat.add_assoc, Nat.add_comm 1 i] using hi (i + 1) (by omega)
        simp [Memory.readBytes, hb, hr]

/-- A read of several bytes fails exactly when one of them holds no value (R46). -/
theorem Memory.readBytes_eq_none (m : Memory) (n a : Nat) :
    m.readBytes a n = none ↔ ∃ i, i < n ∧ m.read (a + i) = none := by
  induction n generalizing a with
  | zero => simp [Memory.readBytes]
  | succ n ih =>
    have hsucc : m.readBytes a (n + 1) = none ↔ m.read a = none ∨ m.readBytes (a + 1) n = none := by
      rw [Memory.readBytes]
      generalize m.readBytes (a + 1) n = o
      cases m.read a <;> cases o <;> simp
    rw [hsucc, ih]
    constructor
    · rintro (h | ⟨i, hi, h⟩)
      · exact ⟨0, by omega, h⟩
      · exact ⟨i + 1, by omega, by rwa [show a + (i + 1) = a + 1 + i by omega]⟩
    · rintro ⟨i, hi, h⟩
      cases i with
      | zero => exact .inl h
      | succ i => exact .inr ⟨i, by omega, by rwa [show a + 1 + i = a + (i + 1) by omega]⟩

theorem Memory.read_ofBytes (bs : Bytes) (a c : Nat) :
    (Memory.ofBytes a bs).read c = if a ≤ c then bs[c - a]? else none := by
  induction bs generalizing a with
  | nil => simp [Memory.ofBytes, Memory.read]
  | cons b r ih =>
    by_cases hc : a = c
    · subst hc; simp [Memory.ofBytes, Memory.read]
    · simp only [Memory.ofBytes, Memory.read, if_neg hc, ih]
      by_cases h : a + 1 ≤ c
      · rw [if_pos h, if_pos (by omega), show c - a = (c - (a + 1)) + 1 by omega, List.getElem?_cons_succ]
      · rw [if_neg h, if_neg (by omega)]

/-- The packet a buffer made of 188 bytes holds. -/
theorem Memory.readBytes_ofBytes (p : Bytes) : (Memory.ofBytes 0 p).readBytes 0 p.length = some p :=
  (Memory.readBytes_eq_some _ _ _ _).mpr ⟨rfl, fun i _ => by simp [Memory.read_ofBytes]⟩

/-- What a snapshot is: the 188 bytes of PKT (R180). -/
theorem snapshot_eq_some (s : State) (p : Bytes) :
    snapshot s = some p ↔ p.length = 188 ∧ ∀ i, i < 188 → s.pkt.read i = p[i]? := by
  simpa [snapshot, Config.pktSize] using Memory.readBytes_eq_some s.pkt 188 0 p

theorem snapshot_eq_none (s : State) : snapshot s = none ↔ ∃ i, i < 188 ∧ s.pkt.read i = none := by
  simpa [snapshot, Config.pktSize] using Memory.readBytes_eq_none s.pkt 188 0

theorem snapshot_congr {s t : State} (h : t.pkt = s.pkt) : snapshot t = snapshot s := by
  unfold snapshot; rw [h]

@[simp] theorem bytesLE_length (w : Word) : (bytesLE w).length = 4 := rfl

@[simp] theorem bytesBE_length (w : Word) : (bytesBE w).length = 4 := rfl

end Sys2Proof.Machine
end

