-- ==== Sys2Proof/Laws/Parse.lean ====
section
/-! SUPPORT. What the three parsers compute: the packet fields as joined bytes, the banks they leave,
and that no byte outside the packet is read. -/

namespace Sys2Proof.Machine

/-! ### Packet bytes -/

theorem byteAt_eq (p : Bytes) (k : Nat) : byteAt p k = (p.getD k 0).toNat := rfl

theorem byteAt_testBit (p : Bytes) (k i : Nat) : (byteAt p k).testBit i = (p.getD k 0).getLsbD i := rfl

theorem byteAt_lt (p : Bytes) (k : Nat) : byteAt p k < 256 := (p.getD k 0).isLt

@[simp] theorem ofNat_byteAt (p : Bytes) (k : Nat) : BitVec.ofNat 8 (byteAt p k) = p.getD k 0 :=
  BitVec.ofNat_toNat (m := 8) (p.getD k 0) |>.trans (BitVec.setWidth_eq _)

/-- A byte inside the packet is read, not the default past its end. -/
theorem byteAt_inside (p : Bytes) {k : Nat} (h : k < p.length) : byteAt p k = p[k].toNat := by
  simp [byteAt, List.getD_eq_getElem?_getD, h]

/-- The rest of a whole packet from lo on (R13). -/
theorem slice_to_end (p : Bytes) {lo n : Nat} (h : p.length = n) : slice p lo n = p.drop lo := by
  unfold slice
  rw [List.take_of_length_le]
  simp [h]

/-! ### Masks bit by bit -/

theorem testBit_of_lt {v n : Nat} (h : v < 2 ^ n) {j : Nat} (hj : n ≤ j) : v.testBit j = false :=
  Nat.testBit_lt_two_pow (lt_of_lt_of_le h (Nat.pow_le_pow_right (by decide) hj))

theorem testBit_0x0E (j : Nat) : (0x0E : Nat).testBit j = (decide (1 ≤ j) && decide (j < 4)) := by
  by_cases h : j < 4
  · interval_cases j <;> rfl
  · rw [testBit_of_lt (n := 4) (by decide) (by omega)]; simp [h]

theorem testBit_0xFE (j : Nat) : (0xFE : Nat).testBit j = (decide (1 ≤ j) && decide (j < 8)) := by
  by_cases h : j < 8
  · interval_cases j <;> rfl
  · rw [testBit_of_lt (n := 8) (by decide) (by omega)]; simp [h]

theorem testBit_0x1F (j : Nat) : (0x1F : Nat).testBit j = decide (j < 5) := by
  by_cases h : j < 5
  · interval_cases j <;> rfl
  · rw [testBit_of_lt (n := 5) (by decide) (by omega)]; simp [h]

theorem testBit_0x3F (j : Nat) : (0x3F : Nat).testBit j = decide (j < 6) := by
  by_cases h : j < 6
  · interval_cases j <;> rfl
  · rw [testBit_of_lt (n := 6) (by decide) (by omega)]; simp [h]

theorem testBit_0x0F (j : Nat) : (0x0F : Nat).testBit j = decide (j < 4) := by
  by_cases h : j < 4
  · interval_cases j <;> rfl
  · rw [testBit_of_lt (n := 4) (by decide) (by omega)]; simp [h]

theorem testBit_0x3 (j : Nat) : (0x3 : Nat).testBit j = decide (j < 2) := by
  by_cases h : j < 2
  · interval_cases j <;> rfl
  · rw [testBit_of_lt (n := 2) (by decide) (by omega)]; simp [h]

/-! ### Fields as joined bytes -/

/-- W is the first four bytes joined, the first in the high bits (R81). -/
theorem tshWord_eq (p : Bytes) : tshWord p = p.getD 0 0 ++ p.getD 1 0 ++ p.getD 2 0 ++ p.getD 3 0 := by
  refine BitVec.eq_of_getLsbD_eq fun i hi => ?_
  simp only [tshWord, BitVec.getLsbD_ofNat, Nat.testBit_or, Nat.testBit_shiftLeft, byteAt_testBit, BitVec.getLsbD_append]
  interval_cases i <;> simp

/-- A timestamp is its five bytes' value bits joined; no marker bit is in it (R86). -/
theorem ts5_eq (p : Bytes) (k : Nat) : BitVec.ofNat 33 (ts5 p k) =
    (p.getD k 0).extractLsb' 1 3 ++ p.getD (k + 1) 0 ++ (p.getD (k + 2) 0).extractLsb' 1 7 ++ p.getD (k + 3) 0
      ++ (p.getD (k + 4) 0).extractLsb' 1 7 := by
  refine BitVec.eq_of_getLsbD_eq fun i hi => ?_
  simp only [ts5, BitVec.getLsbD_ofNat, Nat.testBit_or, Nat.testBit_and, Nat.testBit_shiftLeft,
    Nat.testBit_shiftRight, testBit_0x0E, testBit_0xFE, byteAt_testBit, BitVec.getLsbD_append]
  interval_cases i <;> simp

/-- The PCR base is P[6] to P[9] and the top bit of P[10] joined (R84). -/
theorem pcrBaseOf_eq (p : Bytes) : BitVec.ofNat 33 (pcrBaseOf p) =
    p.getD 6 0 ++ p.getD 7 0 ++ p.getD 8 0 ++ p.getD 9 0 ++ (p.getD 10 0).extractLsb' 7 1 := by
  refine BitVec.eq_of_getLsbD_eq fun i hi => ?_
  simp only [pcrBaseOf, BitVec.getLsbD_ofNat, Nat.testBit_or, Nat.testBit_shiftLeft, Nat.testBit_shiftRight,
    byteAt_testBit, BitVec.getLsbD_append]
  interval_cases i <;> simp

/-- 0 <= base <= 2^33 - 1 (R134). -/
theorem pcrBaseOf_lt (p : Bytes) : pcrBaseOf p < 2 ^ 33 := by
  have shl : ∀ k s, s ≤ 25 → byteAt p k <<< s < 2 ^ 33 := by
    intro k s hs
    rw [Nat.shiftLeft_eq]
    calc byteAt p k * 2 ^ s < 256 * 2 ^ s := Nat.mul_lt_mul_of_pos_right (byteAt_lt p k) (by positivity)
      _ ≤ 256 * 2 ^ 25 := Nat.mul_le_mul_left _ (Nat.pow_le_pow_right (by decide) hs)
      _ = 2 ^ 33 := by norm_num
  have shr : byteAt p 10 >>> 7 < 2 ^ 33 := by
    rw [Nat.shiftRight_eq_div_pow]
    have := byteAt_lt p 10
    omega
  unfold pcrBaseOf
  exact Nat.or_lt_two_pow (Nat.or_lt_two_pow (Nat.or_lt_two_pow (Nat.or_lt_two_pow (shl 6 25 (by omega))
    (shl 7 17 (by omega))) (shl 8 9 (by omega))) (shl 9 1 (by omega))) shr

/-- The tick count fits its 42 bits and never wraps (R135). -/
theorem pcrTicks_toNat (p : Bytes) : (BitVec.ofNat 42 (pcrBaseOf p * 300)).toNat = pcrBaseOf p * 300 := by
  have := pcrBaseOf_lt p
  rw [BitVec.toNat_ofNat, Nat.mod_eq_of_lt]
  omega

/-- START_CODE joined (R153). -/
theorem startCodeOf_eq (p : Bytes) (off : Nat) :
    BitVec.ofNat 24 (startCodeOf p off) = p.getD off 0 ++ p.getD (off + 1) 0 ++ p.getD (off + 2) 0 := by
  refine BitVec.eq_of_getLsbD_eq fun i hi => ?_
  simp only [startCodeOf, BitVec.getLsbD_ofNat, Nat.testBit_or, Nat.testBit_shiftLeft, byteAt_testBit,
    BitVec.getLsbD_append]
  interval_cases i <;> simp

theorem startCodeOf_lt (p : Bytes) (off : Nat) : startCodeOf p off < 2 ^ 24 := by
  have shl : ∀ k s, s ≤ 16 → byteAt p k <<< s < 2 ^ 24 := by
    intro k s hs
    rw [Nat.shiftLeft_eq]
    calc byteAt p k * 2 ^ s < 256 * 2 ^ s := Nat.mul_lt_mul_of_pos_right (byteAt_lt p k) (by positivity)
      _ ≤ 256 * 2 ^ 16 := Nat.mul_le_mul_left _ (Nat.pow_le_pow_right (by decide) hs)
      _ = 2 ^ 24 := by norm_num
  unfold startCodeOf
  exact Nat.or_lt_two_pow (Nat.or_lt_two_pow (shl off 16 (by omega)) (shl _ 8 (by omega)))
    (lt_of_lt_of_le (byteAt_lt p _) (by norm_num))

/-- The start code as a number is 1 exactly when the 24-bit field is. -/
theorem startCodeOf_eq_one (p : Bytes) (off : Nat) :
    startCodeOf p off = 1 ↔ BitVec.ofNat 24 (startCodeOf p off) = 1#24 := by
  constructor
  · intro h; rw [h]
  · intro h
    have hv := congrArg BitVec.toNat h
    have hl := startCodeOf_lt p off
    simp only [BitVec.toNat_ofNat] at hv
    omega

/-- PACKET_LENGTH joined (R155). -/
theorem packetLengthOf_eq (p : Bytes) (off : Nat) :
    BitVec.ofNat 16 (packetLengthOf p off) = p.getD (off + 4) 0 ++ p.getD (off + 5) 0 := by
  refine BitVec.eq_of_getLsbD_eq fun i hi => ?_
  simp only [packetLengthOf, BitVec.getLsbD_ofNat, Nat.testBit_or, Nat.testBit_shiftLeft, byteAt_testBit,
    BitVec.getLsbD_append]
  interval_cases i <;> simp

theorem ptsDtsFlagsOf_lt (p : Bytes) (off : Nat) : ptsDtsFlagsOf p off < 4 := by
  unfold ptsDtsFlagsOf
  rw [Nat.shiftRight_eq_div_pow]
  have := byteAt_lt p (off + 7)
  omega

theorem ptsDtsFlagsOf_eq (p : Bytes) (off : Nat) :
    BitVec.ofNat 2 (ptsDtsFlagsOf p off) = (p.getD (off + 7) 0).extractLsb' 6 2 := by
  refine BitVec.eq_of_getLsbD_eq fun i hi => ?_
  simp only [ptsDtsFlagsOf, BitVec.getLsbD_ofNat, Nat.testBit_shiftRight, byteAt_testBit, BitVec.getLsbD_extractLsb']

theorem extFlags_eq (p : Bytes) (k : Nat) :
    BitVec.ofNat 6 (byteAt p k &&& 0x3F) = (p.getD k 0).extractLsb' 0 6 := by
  refine BitVec.eq_of_getLsbD_eq fun i hi => ?_
  simp only [BitVec.getLsbD_ofNat, Nat.testBit_and, testBit_0x3F, byteAt_testBit, BitVec.getLsbD_extractLsb']
  simp [hi]

/-! ### TSH_PARSE -/

/-- The header bank as bits of the first four bytes (R110). -/
theorem tshParse_eq (p : Bytes) : tshParse p =
    { word := p.getD 0 0 ++ p.getD 1 0 ++ p.getD 2 0 ++ p.getD 3 0
      sync := p.getD 0 0
      tei  := (p.getD 1 0).getLsbD 7
      pusi := (p.getD 1 0).getLsbD 6
      prio := (p.getD 1 0).getLsbD 5
      pid  := (p.getD 1 0).extractLsb' 0 5 ++ p.getD 2 0
      tsc  := (p.getD 3 0).extractLsb' 6 2
      afc  := (p.getD 3 0).extractLsb' 4 2
      cc   := (p.getD 3 0).extractLsb' 0 4 } := by
  have hpid : BitVec.ofNat 13 ((byteAt p 1 &&& 0x1F) <<< 8 ||| byteAt p 2)
      = (p.getD 1 0).extractLsb' 0 5 ++ p.getD 2 0 := by
    refine BitVec.eq_of_getLsbD_eq fun i hi => ?_
    simp only [BitVec.getLsbD_ofNat, Nat.testBit_or, Nat.testBit_and, Nat.testBit_shiftLeft, testBit_0x1F,
      byteAt_testBit, BitVec.getLsbD_append]
    interval_cases i <;> simp
  have htsc : BitVec.ofNat 2 (byteAt p 3 >>> 6) = (p.getD 3 0).extractLsb' 6 2 := by
    refine BitVec.eq_of_getLsbD_eq fun i hi => ?_
    simp only [BitVec.getLsbD_ofNat, Nat.testBit_shiftRight, byteAt_testBit, BitVec.getLsbD_extractLsb']
  have hafc : BitVec.ofNat 2 ((byteAt p 3 >>> 4) &&& 0x3) = (p.getD 3 0).extractLsb' 4 2 := by
    refine BitVec.eq_of_getLsbD_eq fun i hi => ?_
    simp only [BitVec.getLsbD_ofNat, Nat.testBit_and, Nat.testBit_shiftRight, testBit_0x3, byteAt_testBit,
      BitVec.getLsbD_extractLsb']
    simp [hi]
  have hcc : BitVec.ofNat 4 (byteAt p 3 &&& 0x0F) = (p.getD 3 0).extractLsb' 0 4 := by
    refine BitVec.eq_of_getLsbD_eq fun i hi => ?_
    simp only [BitVec.getLsbD_ofNat, Nat.testBit_and, testBit_0x0F, byteAt_testBit, BitVec.getLsbD_extractLsb']
    simp [hi]
  simp only [tshParse, tshWord_eq, ofNat_byteAt, hpid, htsc, hafc, hcc, byteAt_testBit]

/-- The operand fields of W, as bits of the first four bytes (R81). -/
theorem headerOf_tshWord (p : Bytes) : headerOf (tshWord p) =
    { sync := p.getD 0 0
      tei  := (p.getD 1 0).getLsbD 7
      prio := (p.getD 1 0).getLsbD 5
      pid  := (p.getD 1 0).extractLsb' 0 5 ++ p.getD 2 0
      tsc  := (p.getD 3 0).extractLsb' 6 2
      afc  := (p.getD 3 0).extractLsb' 4 2
      cc   := (p.getD 3 0).extractLsb' 0 4 } := by
  unfold headerOf
  rw [tshWord_eq]
  simp only [TsHeader.mk.injEq]
  refine ⟨?_, ?_, ?_, ?_, ?_, ?_, ?_⟩
  case refine_2 => simp only [BitVec.getLsbD_append]; simp
  case refine_3 => simp only [BitVec.getLsbD_append]; simp
  all_goals
    refine BitVec.eq_of_getLsbD_eq fun i hi => ?_
    simp only [BitVec.getLsbD_extractLsb', BitVec.getLsbD_append]
    interval_cases i <;> simp

/-- The bank and the operands of the dispatched class have one set of fields (R36, R110). -/
theorem headerOf_eq_bank (p : Bytes) : headerOf (tshWord p) =
    { sync := (tshParse p).sync, tei := (tshParse p).tei, prio := (tshParse p).prio, pid := (tshParse p).pid
      tsc := (tshParse p).tsc, afc := (tshParse p).afc, cc := (tshParse p).cc } := by
  rw [headerOf_tshWord, tshParse_eq]

theorem tshWord_pusi (p : Bytes) : (tshWord p).getLsbD 22 = (tshParse p).pusi := by
  rw [tshWord_eq, tshParse_eq]
  simp only [BitVec.getLsbD_append]
  simp

/-- HAS_AF of the bank is HAS_AF of the dispatched class, and W[5] (R82, R116). -/
theorem tshParse_hasAf (p : Bytes) : (tshParse p).hasAf = (headerOf (tshWord p)).hasAf := by
  rw [TsHeader.hasAf_eq, headerOf_eq_bank]
  rfl

theorem tshWord_hasAf (p : Bytes) : (tshWord p).getLsbD 5 = (tshParse p).hasAf := by
  rw [tshParse_hasAf, headerOf_hasAf]

/-! ### AF_PARSE -/

theorem afParse_of_ok {p : Bytes} (h : byteAt p 4 ≤ 183) : afParse p = afParsedBank p := by
  simp [afParse, afLengthOk, h]

theorem afParse_of_fail {p : Bytes} (h : 183 < byteAt p 4) : afParse p = afFailedBank p := by
  simp [afParse, afLengthOk, h]

/-- afOk and afConsumed, said once (R130, R136). -/
theorem afSignals_cases (hasAf : Bool) (p : Bytes) :
    (hasAf = false ∧ afSignals hasAf p = { ok := true, consumed := 0 })
      ∨ (hasAf = true ∧ byteAt p 4 ≤ 183 ∧ afSignals hasAf p = { ok := true, consumed := byteAt p 4 + 1 })
      ∨ (hasAf = true ∧ 183 < byteAt p 4 ∧ afSignals hasAf p = { ok := false, consumed := 0 }) := by
  cases hasAf
  · exact .inl ⟨rfl, rfl⟩
  · rcases Nat.lt_or_ge 183 (byteAt p 4) with h | h
    · exact .inr (.inr ⟨rfl, h, by simp [afSignals, afLengthOk, h]⟩)
    · exact .inr (.inl ⟨rfl, h, by simp [afSignals, afLengthOk, h]⟩)

/-- AF_PARSE leaves a sound bank. -/
theorem afParse_sound (p : Bytes) : (afParse p).sound := by
  rcases Nat.lt_or_ge 183 (byteAt p 4) with h | h
  · rw [afParse_of_fail h]
    simp [AfBank.sound, afFailedBank, AfBank.zero]
  · rw [afParse_of_ok h]
    have hb := pcrBaseOf_lt p
    have h4 := byteAt_lt p 4
    have hf : (byteAt p 5).testBit 4 = (p.getD 5 0).getLsbD 4 := rfl
    cases hp : (byteAt p 5).testBit 4
    · rw [hp] at hf
      refine ⟨by simp [afParsedBank, hp], fun _ => by simp [afParsedBank, hp], fun hv => ?_, fun _ => ?_, fun hv => ?_⟩
      · simp [afParsedBank, hp] at hv
      · refine ⟨by simp only [afParsedBank, ofNat_byteAt, hp, ← hf], ?_, ?_⟩
        · simpa [afParsedBank, byteAt] using h
        · simp only [afParsedBank, hp, Bool.false_eq_true, if_false, BitVec.toNat_ofNat]
          omega
      · simp [afParsedBank] at hv
    · rw [hp] at hf
      refine ⟨?_, fun hv => ?_, fun _ => by simp [afParsedBank, hp], fun _ => ?_, fun hv => ?_⟩
      · simp only [afParsedBank, hp, if_true]
        rw [pcrTicks_toNat, BitVec.toNat_ofNat, Nat.mod_eq_of_lt hb]
      · simp [afParsedBank, hp] at hv
      · refine ⟨by simp only [afParsedBank, ofNat_byteAt, hp, ← hf], ?_, by simp [afParsedBank, hp]⟩
        simpa [afParsedBank, byteAt] using h
      · simp [afParsedBank] at hv

theorem afZero_sound : AfBank.zero.sound := by simp [AfBank.sound, AfBank.zero]

/-! ### PES_PARSE -/

/-- The four ways PES_PARSE ends, in the order of R170. -/
theorem pesParse_cases (p : Bytes) (off : Nat) :
    (188 < off + 9 ∧ pesParse p off = { bank := PesBank.zero, failure := some .truncPesMin })
      ∨ (off + 9 ≤ 188 ∧ 188 < off + hdrTotalLenOf p off
          ∧ pesParse p off = { bank := pesFixedBank p off, failure := some .truncPesHdr })
      ∨ (off + 9 ≤ 188 ∧ off + hdrTotalLenOf p off ≤ 188 ∧ 188 < off + pesNeed (ptsDtsFlagsOf p off)
          ∧ pesParse p off = { bank := pesFixedBank p off, failure := some .truncPesTs })
      ∨ (off + 9 ≤ 188 ∧ off + hdrTotalLenOf p off ≤ 188 ∧ off + pesNeed (ptsDtsFlagsOf p off) ≤ 188
          ∧ pesParse p off = { bank := pesParsedBank p off
                               failure := if startCodeOf p off = 1 then none else some .invalidStartCode }) := by
  have hh : 9 ≤ hdrTotalLenOf p off := Nat.le_add_right 9 _
  have hn : 9 ≤ pesNeed (ptsDtsFlagsOf p off) := Nat.le_add_right 9 _
  unfold pesParse
  simp only [Config.pktSize]
  by_cases h1 : 188 - off < 9
  · exact .inl ⟨by omega, by rw [if_pos h1]⟩
  · by_cases h2 : hdrTotalLenOf p off > 188 - off
    · exact .inr (.inl ⟨by omega, by omega, by rw [if_neg h1, if_pos h2]⟩)
    · by_cases h3 : pesNeed (ptsDtsFlagsOf p off) > 188 - off
      · exact .inr (.inr (.inl ⟨by omega, by omega, by omega, by rw [if_neg h1, if_neg h2, if_pos h3]⟩))
      · exact .inr (.inr (.inr ⟨by omega, by omega, by omega, by rw [if_neg h1, if_neg h2, if_neg h3]⟩))

/-- Every byte a complete parse reads, timestamps included, lies inside the packet (R161). -/
theorem pesParse_reads_inside (p : Bytes) (off : Nat)
    (h : (pesParse p off).failure = none ∨ (pesParse p off).failure = some .invalidStartCode) :
    off + pesNeed (ptsDtsFlagsOf p off) ≤ 188 ∧ off + hdrTotalLenOf p off ≤ 188 := by
  rcases pesParse_cases p off with ⟨_, e⟩ | ⟨_, _, e⟩ | ⟨_, _, _, e⟩ | ⟨_, h1, h2, _⟩
  · rw [e] at h; simp at h
  · rw [e] at h; simp at h
  · rw [e] at h; simp at h
  · exact ⟨h2, h1⟩

/-- A parse that fails names one of the four causes, never NONE. -/
theorem pesParse_failure_ne_none (p : Bytes) (off : Nat) {c : Cause} (h : (pesParse p off).failure = some c) :
    c ≠ .none := by
  rcases pesParse_cases p off with ⟨_, e⟩ | ⟨_, _, e⟩ | ⟨_, _, _, e⟩ | ⟨_, _, _, e⟩ <;> rw [e] at h <;>
    simp at h
  · subst h; decide
  · subst h; decide
  · subst h; decide
  · obtain ⟨_, rfl⟩ := h; decide

theorem hdrTotalLen_toNat (p : Bytes) (off : Nat) :
    (BitVec.ofNat 9 (hdrTotalLenOf p off)).toNat = 9 + (BitVec.ofNat 8 (byteAt p (off + 8))).toNat := by
  have := byteAt_lt p (off + 8)
  simp only [hdrTotalLenOf, BitVec.toNat_ofNat]
  omega

theorem ptsDtsFlags_eq_iff (p : Bytes) (off n : Nat) (hn : n < 4) :
    BitVec.ofNat 2 (ptsDtsFlagsOf p off) = BitVec.ofNat 2 n ↔ ptsDtsFlagsOf p off = n := by
  have := ptsDtsFlagsOf_lt p off
  constructor
  · intro h
    have := congrArg BitVec.toNat h
    simp only [BitVec.toNat_ofNat] at this
    omega
  · intro h; rw [h]

theorem pesZero_sound : PesBank.zero.sound := by simp [PesBank.sound, PesBank.zero]

theorem pesFixedBank_sound (p : Bytes) (off : Nat) : (pesFixedBank p off).sound := by
  refine ⟨.inr (hdrTotalLen_toNat p off), ?_, fun _ => rfl, fun _ => rfl, ?_, ?_⟩
  · simpa [pesFixedBank] using startCodeOf_eq_one p off
  · simp [pesFixedBank, PesBank.zero]
  · simp [pesFixedBank, PesBank.zero]

theorem pesParsedBank_sound (p : Bytes) (off : Nat) : (pesParsedBank p off).sound := by
  have f1 := ptsDtsFlags_eq_iff p off 1 (by decide)
  have f2 := ptsDtsFlags_eq_iff p off 2 (by decide)
  have f3 := ptsDtsFlags_eq_iff p off 3 (by decide)
  refine ⟨.inr (hdrTotalLen_toNat p off), ?_, fun h => ?_, fun h => ?_, ?_, ?_⟩
  · simpa [pesParsedBank, pesFixedBank] using startCodeOf_eq_one p off
  · simp only [pesParsedBank] at h ⊢
    simp [h]
  · simp only [pesParsedBank, Bool.or_eq_false_iff] at h ⊢
    simp [h]
  · simp only [pesParsedBank, pesFixedBank, Bool.or_eq_true, beq_iff_eq, true_and]
    rw [← f2, ← f3]
    rfl
  · simp only [pesParsedBank, pesFixedBank, Bool.or_eq_true, beq_iff_eq, true_and]
    rw [← f1, ← f3]
    rfl

/-- PES_PARSE leaves a sound bank. -/
theorem pesParse_sound (p : Bytes) (off : Nat) : (pesParse p off).bank.sound := by
  rcases pesParse_cases p off with ⟨_, e⟩ | ⟨_, _, e⟩ | ⟨_, _, _, e⟩ | ⟨_, _, _, e⟩ <;> rw [e]
  · exact pesZero_sound
  · exact pesFixedBank_sound p off
  · exact pesFixedBank_sound p off
  · exact pesParsedBank_sound p off

end Sys2Proof.Machine
end

