-- ==== Sys2Proof/Laws/Assembler.lean ====
section
/-! SUPPORT. What the packet classes and ABSORB can do, said once: their cases, and what they leave. -/

namespace Sys2Proof.Machine

/-! ### START -/

/-- The state in which a START has opened its unit (R183, R184). -/
def opened (h : TsHeader) (s : State) : State := setFsm .assembling (bufClear (retrack h.pid s))

/-- What START does once the adaptation field is sound (R186 to R189). -/
theorem startParsed_cases (h : TsHeader) (p : Bytes) (off : Nat) (s : State) :
    (∃ c, (pesParse p off).failure = some c ∧ startParsed h p off s = lose c (setPes (pesParse p off).bank s))
      ∨ ((pesParse p off).failure = none ∧ startParsed h p off s =
          finish .started .none (recordCc h.cc (bufAppend p (startAppendFrom s.config.raw p off) 188
            (setPes (pesParse p off).bank s)))) := by
  unfold startParsed
  cases hf : (pesParse p off).failure with
  | some c => exact .inl ⟨c, rfl, by simp [hf]⟩
  | none => exact .inr ⟨rfl, by simp [hf]⟩

/-- What START does (R183 to R189): the adaptation-field failure, or the PES header at 4 + afConsumed. -/
theorem startStep_cases (h : TsHeader) (p : Bytes) (s : State) :
    (h.hasAf = false ∧ startStep h p s = startParsed h p 4 (opened h s))
      ∨ (h.hasAf = true ∧ byteAt p 4 ≤ 183 ∧ startStep h p s = startParsed h p (5 + byteAt p 4) (opened h s))
      ∨ (h.hasAf = true ∧ 183 < byteAt p 4 ∧ startStep h p s = lose .truncAf (opened h s)) := by
  unfold startStep
  rcases afSignals_cases h.hasAf p with ⟨ha, e⟩ | ⟨ha, hl, e⟩ | ⟨ha, hl, e⟩
  · exact .inl ⟨ha, by simp [e, opened, Config.tsHdrLen]⟩
  · refine .inr (.inl ⟨ha, hl, ?_⟩)
    have : Config.tsHdrLen + (byteAt p 4 + 1) = 5 + byteAt p 4 := by simp only [Config.tsHdrLen]; omega
    simp [e, opened, this]
  · exact .inr (.inr ⟨ha, hl, by simp [e, opened]⟩)

/-! ### Non-start packets -/

/-- What every non-start packet does before its own rule (R190 to R193, R270). -/
theorem nonStart_cases (cc : BitVec 4) (f : State → State) (s : State) :
    (ccOk cc s.lastCc = false ∧ nonStart cc f s = lose .continuityBroken (recordCc cc s))
      ∨ (ccOk cc s.lastCc = true ∧ s.fsm = .idle ∧ nonStart cc f s = lose .notAssembling (recordCc cc s))
      ∨ (ccOk cc s.lastCc = true ∧ s.fsm = .assembling ∧ nonStart cc f s = f (recordCc cc s)) := by
  unfold nonStart
  cases hc : ccOk cc s.lastCc
  · exact .inl ⟨rfl, by simp⟩
  · cases hf : s.fsm
    · exact .inr (.inl ⟨rfl, rfl, by simp [hf]⟩)
    · exact .inr (.inr ⟨rfl, rfl, by simp [hf]⟩)

/-- The continuity check as the next counter modulo 16 (R190). -/
theorem ccOk_iff (cc : BitVec 4) (last : Option (BitVec 4)) : ccOk cc last = true ↔ ∃ v, last = some v ∧ cc = v + 1 := by
  cases last with
  | none => simp [ccOk]
  | some v =>
    simp only [ccOk, beq_iff_eq, Option.some.injEq, exists_eq_left']
    constructor
    · intro h
      apply BitVec.eq_of_toNat_eq
      simp [BitVec.toNat_add, h]
    · rintro rfl
      simp [BitVec.toNat_add]

/-- CONTINUE of an accepted packet (R194, R198). -/
theorem continueAccepted_cases (p : Bytes) (s : State) :
    (s.asmCap < s.asmBuf.length + 184 ∧ continueAccepted p s = lose .bufferOverflow s)
      ∨ (s.asmBuf.length + 184 ≤ s.asmCap
          ∧ continueAccepted p s = finish .continued .none (bufAppend p 4 188 s)) := by
  unfold continueAccepted overflows State.asmLen
  simp only [Config.pktSize, Config.tsHdrLen]
  by_cases h : s.asmBuf.length + 184 > s.asmCap
  · exact .inl ⟨h, by simp [h]⟩
  · exact .inr ⟨by omega, by simp [h]⟩

/-- COMPLETE of an accepted packet from `lo` on (R195, R196, R198). -/
theorem completeFrom_cases (p : Bytes) (lo : Nat) (s : State) :
    (s.asmCap < s.asmBuf.length + (188 - lo) ∧ completeFrom p lo s = lose .bufferOverflow s)
      ∨ (s.asmBuf.length + (188 - lo) ≤ s.asmCap ∧ completeFrom p lo s =
          finish .finished .none (setFsm .idle (bufClear (sinkWrite (bufAppend p lo 188 s))))) := by
  unfold completeFrom overflows State.asmLen
  simp only [Config.pktSize]
  by_cases h : s.asmBuf.length + (188 - lo) > s.asmCap
  · exact .inl ⟨h, by simp [h]⟩
  · exact .inr ⟨by omega, by simp [h]⟩

/-- COMPLETE of an accepted packet with an adaptation field: its failure first (R197). -/
theorem completeAccepted_cases (h : TsHeader) (p : Bytes) (s : State) (ha : h.hasAf = true) :
    (183 < byteAt p 4 ∧ completeAccepted h p s = lose .truncAf s)
      ∨ (byteAt p 4 ≤ 183 ∧ completeAccepted h p s = completeFrom p (5 + byteAt p 4) s) := by
  unfold completeAccepted
  rcases afSignals_cases h.hasAf p with ⟨hn, _⟩ | ⟨_, hl, e⟩ | ⟨_, hl, e⟩
  · rw [ha] at hn; cases hn
  · refine .inr ⟨hl, ?_⟩
    have : Config.tsHdrLen + (byteAt p 4 + 1) = 5 + byteAt p 4 := by simp only [Config.tsHdrLen]; omega
    simp [e, this]
  · exact .inl ⟨hl, by simp [e]⟩

/-! ### ABSORB -/

/-- The dispatch of ABSORB, by the two bits the parsed header holds (R89, R181). -/
theorem absorbDispatch_eq (p : Bytes) (s : State) :
    absorbDispatch p s =
      if (tshParse p).pusi then startStep (headerOf (tshWord p)) p s
      else if (headerOf (tshWord p)).hasAf then completionStep (headerOf (tshWord p)) p s
      else continuationStep (headerOf (tshWord p)) p s := by
  unfold absorbDispatch
  simp only [packetClass_eq, tshWord_pusi, headerOf_hasAf]
  cases (tshParse p).pusi <;> cases (tshWord p).getLsbD 5 <;> rfl

theorem onPacket_next {f : Bytes → State → State} {s : State} {p : Bytes} (h : snapshot s = some p) :
    onPacket f s = .next (f p s) := by simp [onPacket, h]

theorem onPacket_fault {f : Bytes → State → State} {s : State} (h : snapshot s = none) :
    onPacket f s = .fault .unwrittenPacketByte := by simp [onPacket, h]

/-- Where a packet class or ABSORB answers next, the packet was written and the answer is its step. -/
theorem onPacket_eq_next {f : Bytes → State → State} {s t : State} (h : onPacket f s = .next t) :
    ∃ p, snapshot s = some p ∧ t = f p s := by
  unfold onPacket at h
  split at h
  · rename_i p hp; cases h; exact ⟨p, hp, rfl⟩
  · cases h

/-! ### What they leave -/

/-- Everything that is not the assembler's or a parser's. -/
structure KeepsHostSide (s t : State) : Prop where
  pkt : t.pkt = s.pkt
  config : t.config = s.config
  cmdErr : t.cmdErr = s.cmdErr
  busErr : t.busErr = s.busErr
  asmCap : t.asmCap = s.asmCap
  hostProgram : t.hostProgram = s.hostProgram
  hostReads : t.hostReads = s.hostReads

theorem KeepsHostSide.trans {a b c : State} (h : KeepsHostSide a b) (k : KeepsHostSide b c) : KeepsHostSide a c :=
  ⟨k.pkt.trans h.pkt, k.config.trans h.config, k.cmdErr.trans h.cmdErr, k.busErr.trans h.busErr,
    k.asmCap.trans h.asmCap, k.hostProgram.trans h.hostProgram, k.hostReads.trans h.hostReads⟩

theorem opened_keeps (h : TsHeader) (s : State) : KeepsHostSide s (opened h s) := by
  constructor <;> simp [opened]

theorem startParsed_keeps (h : TsHeader) (p : Bytes) (off : Nat) (s : State) :
    KeepsHostSide s (startParsed h p off s) := by
  rcases startParsed_cases h p off s with ⟨c, _, e⟩ | ⟨_, e⟩ <;> rw [e] <;> constructor <;> simp

theorem startStep_keeps (h : TsHeader) (p : Bytes) (s : State) : KeepsHostSide s (startStep h p s) := by
  rcases startStep_cases h p s with ⟨_, e⟩ | ⟨_, _, e⟩ | ⟨_, _, e⟩ <;> rw [e]
  · exact (opened_keeps h s).trans (startParsed_keeps h p _ _)
  · exact (opened_keeps h s).trans (startParsed_keeps h p _ _)
  · exact (opened_keeps h s).trans (by constructor <;> simp)

theorem nonStart_keeps (cc : BitVec 4) (f : State → State) (s : State) (hf : ∀ u, KeepsHostSide u (f u)) :
    KeepsHostSide s (nonStart cc f s) := by
  rcases nonStart_cases cc f s with ⟨_, e⟩ | ⟨_, _, e⟩ | ⟨_, _, e⟩ <;> rw [e]
  · constructor <;> simp
  · constructor <;> simp
  · exact KeepsHostSide.trans (by constructor <;> simp) (hf _)

theorem continueAccepted_keeps (p : Bytes) (s : State) : KeepsHostSide s (continueAccepted p s) := by
  rcases continueAccepted_cases p s with ⟨_, e⟩ | ⟨_, e⟩ <;> rw [e] <;> constructor <;> simp

theorem completeFrom_keeps (p : Bytes) (lo : Nat) (s : State) : KeepsHostSide s (completeFrom p lo s) := by
  rcases completeFrom_cases p lo s with ⟨_, e⟩ | ⟨_, e⟩ <;> rw [e] <;> constructor <;> simp

theorem completeAccepted_keeps (h : TsHeader) (p : Bytes) (s : State) : KeepsHostSide s (completeAccepted h p s) := by
  unfold completeAccepted
  dsimp only
  split
  · exact completeFrom_keeps p _ s
  · constructor <;> simp

theorem continuationStep_keeps (h : TsHeader) (p : Bytes) (s : State) : KeepsHostSide s (continuationStep h p s) :=
  nonStart_keeps h.cc _ s (continueAccepted_keeps p)

theorem completionStep_keeps (h : TsHeader) (p : Bytes) (s : State) : KeepsHostSide s (completionStep h p s) :=
  nonStart_keeps h.cc _ s (completeAccepted_keeps h p)

/-- ABSORB touches nothing of the host's side (R22, R23). -/
theorem absorbStep_keeps (p : Bytes) (s : State) : KeepsHostSide s (absorbStep p s) := by
  have hfront : KeepsHostSide s (absorbFront p s) := by constructor <;> simp
  refine hfront.trans ?_
  rw [absorbStep, absorbDispatch_eq]
  split
  · exact startStep_keeps _ p _
  · split
    · exact completionStep_keeps _ p _
    · exact continuationStep_keeps _ p _

end Sys2Proof.Machine
end

