-- ==== Sys2Proof/Laws/Exec.lean ====
section
/-! SUPPORT. What each instruction and a step can do, said once: the form in which it answers next. -/

namespace Sys2Proof.Machine

/-! ### The arms -/

@[simp] theorem exec_nop (s : State) : exec .nop s = .next s := rfl
@[simp] theorem exec_init (s : State) : exec .init s = .next (initialise s) := rfl
theorem exec_absorb (s : State) : exec .absorb s = onPacket absorbStep s := rfl
theorem exec_start (h : TsHeader) (s : State) : exec (.start h) s = onPacket (startStep h) s := rfl
theorem exec_continuation (h : TsHeader) (s : State) :
    exec (.continuation h) s = onPacket (continuationStep h) s := rfl
theorem exec_completion (h : TsHeader) (s : State) :
    exec (.completion h) s = onPacket (completionStep h) s := rfl

/-! ### Addresses -/

theorem inPkt_iff (a : Addr) : inPkt a = true ↔ a.toNat ≤ 187 := by
  simp only [inPkt, Config.pktSize, decide_eq_true_eq]; omega

theorem aligned_iff (a : Addr) : aligned a = true ↔ a.toNat % 4 = 0 := by simp [aligned]

/-- Where the map of R61 has a register: aligned offsets from 0x100 to 0x168. -/
theorem regAt_bounds {a : Nat} {r : Reg} (h : regAt a = some r) : a % 4 = 0 ∧ 0x100 ≤ a ∧ a ≤ 0x168 := by
  unfold regAt at h
  split at h <;> first | omega | cases h

/-! ### The bus -/

/-- What an RD8 that answers next did (R241). -/
theorem execRd8_next {a : Addr} {s t : State} (h : execRd8 a s = .next t) :
    (a.toNat ≤ 187 ∧ ∃ b, s.pkt.read a.toNat = some b ∧ t = returnRead (.byte b) s)
      ∨ (187 < a.toNat ∧ t = returnRead (.byte 0) (raiseBusError s)) := by
  unfold execRd8 at h
  by_cases hp : inPkt a = true
  · rw [if_pos hp] at h
    split at h
    · rename_i b hb
      cases h
      exact .inl ⟨(inPkt_iff a).mp hp, b, hb, rfl⟩
    · cases h
  · rw [if_neg hp] at h
    cases h
    exact .inr ⟨by rw [inPkt_iff] at hp; omega, rfl⟩

/-- What an RD32 that answers next did (R240). -/
theorem execRd32_next {a : Addr} {s t : State} (h : execRd32 a s = .next t) :
    (a.toNat % 4 = 0 ∧ ∃ w, t = returnRead (.word w) s)
      ∨ (a.toNat % 4 ≠ 0 ∧ t = returnRead (.word 0) (raiseBusError s)) := by
  unfold execRd32 at h
  by_cases hal : aligned a = true
  · rw [if_pos hal] at h
    refine .inl ⟨(aligned_iff a).mp hal, ?_⟩
    by_cases hp : inPkt a = true
    · rw [if_pos hp] at h
      split at h
      · cases h; exact ⟨_, rfl⟩
      · cases h
    · rw [if_neg hp] at h
      cases h
      exact ⟨_, rfl⟩
  · rw [if_neg hal] at h
    cases h
    exact .inr ⟨by rwa [aligned_iff] at hal, rfl⟩

/-- What a WR8 that answers next did (R243); it always answers next. -/
theorem execWr8_cases (a : Addr) (d : Byte) (s : State) :
    (a.toNat ≤ 187 ∧ execWr8 a d s = .next (writeByte a.toNat d s))
      ∨ (187 < a.toNat ∧ execWr8 a d s = .next (raiseBusError s)) := by
  unfold execWr8
  by_cases hp : inPkt a = true
  · exact .inl ⟨(inPkt_iff a).mp hp, by rw [if_pos hp]⟩
  · exact .inr ⟨by rw [inPkt_iff] at hp; omega, by rw [if_neg hp]⟩

/-- What a WR32 does (R242): a BusError, four PKT bytes, a command, CONFIG, or nothing. -/
theorem execWr32_cases (a : Addr) (d : Word) (s : State) :
    (a.toNat % 4 ≠ 0 ∧ execWr32 a d s = .next (raiseBusError s))
      ∨ (a.toNat % 4 = 0 ∧ a.toNat ≤ 184 ∧ execWr32 a d s = .next (writeWord a.toNat d s))
      ∨ (a = 0x100#12 ∧ execWr32 a d s = runCommand d s)
      ∨ (a = 0x104#12 ∧ execWr32 a d s = .next (setConfig (configOf d) s))
      ∨ (a.toNat % 4 = 0 ∧ 188 ≤ a.toNat ∧ a ≠ 0x100#12 ∧ a ≠ 0x104#12 ∧ execWr32 a d s = .next s) := by
  unfold execWr32
  by_cases hal : aligned a = true
  · have h4 := (aligned_iff a).mp hal
    rw [if_pos hal]
    by_cases hp : inPkt a = true
    · have := (inPkt_iff a).mp hp
      exact .inr (.inl ⟨h4, by omega, by rw [if_pos hp]⟩)
    · rw [if_neg hp]
      rw [inPkt_iff] at hp
      by_cases h0 : a = 0x100#12
      · subst h0; exact .inr (.inr (.inl ⟨rfl, rfl⟩))
      · by_cases h1 : a = 0x104#12
        · subst h1; exact .inr (.inr (.inr (.inl ⟨rfl, rfl⟩)))
        · refine .inr (.inr (.inr (.inr ⟨h4, by omega, h0, h1, ?_⟩)))
          have n0 : a.toNat ≠ 0x100 := fun hn => h0 (BitVec.eq_of_toNat_eq (by simpa using hn))
          have n1 : a.toNat ≠ 0x104 := fun hn => h1 (BitVec.eq_of_toNat_eq (by simpa using hn))
          unfold registerWrite
          split
          · rename_i hr
            unfold regAt at hr
            split at hr <;> first | omega | cases hr
          · rename_i hr
            unfold regAt at hr
            split at hr <;> first | omega | cases hr
          · rfl
  · exact .inl ⟨by rwa [aligned_iff] at hal, by rw [if_neg hal]⟩

/-- What a command word does (R220 to R224). -/
theorem runCommand_cases (d : Word) (s : State) :
    (d = 0 ∧ runCommand d s = .next s) ∨ (d = 1 ∧ runCommand d s = .next (initialise s))
      ∨ (d = 2 ∧ runCommand d s = onPacket absorbStep s)
      ∨ (d ≠ 0 ∧ d ≠ 1 ∧ d ≠ 2 ∧ runCommand d s = .next (raiseCommandError s)) := by
  unfold runCommand
  rcases commandOf_cases d with ⟨h, e⟩ | ⟨h, e⟩ | ⟨h, e⟩ | ⟨h0, h1, h2, e⟩ <;> rw [e]
  · exact .inl ⟨h, rfl⟩
  · exact .inr (.inl ⟨h, rfl⟩)
  · exact .inr (.inr (.inl ⟨h, rfl⟩))
  · exact .inr (.inr (.inr ⟨h0, h1, h2, rfl⟩))

/-! ### A step -/

/-- The host has issued its next line. -/
def popped (rest : List BusLine) (s : State) : State := { s with hostProgram := rest }

/-- Everything a step that answers next can have done: one case for each thing the host can issue. -/
inductive StepKind (s : State) : State → Prop where
  | idle : s.hostProgram = [] → StepKind s s
  | rd8 (l : BusLine) (rest : List BusLine) (a : Addr) (t : State) : s.hostProgram = l :: rest →
      decodeLine l = .ok (.rd8 a) → execRd8 a (popped rest s) = .next t → StepKind s t
  | rd32 (l : BusLine) (rest : List BusLine) (a : Addr) (t : State) : s.hostProgram = l :: rest →
      decodeLine l = .ok (.rd32 a) → execRd32 a (popped rest s) = .next t → StepKind s t
  | wr8 (l : BusLine) (rest : List BusLine) (a : Addr) (d : Byte) (t : State) : s.hostProgram = l :: rest →
      decodeLine l = .ok (.wr8 a d) → execWr8 a d (popped rest s) = .next t → StepKind s t
  | wr32 (l : BusLine) (rest : List BusLine) (a : Addr) (d : Word) (t : State) : s.hostProgram = l :: rest →
      decodeLine l = .ok (.wr32 a d) → execWr32 a d (popped rest s) = .next t → StepKind s t

theorem step_next {s t : State} (h : step s = .next t) : StepKind s t := by
  unfold step at h
  split at h
  · rename_i hp; cases h; exact .idle hp
  · rename_i l rest hp
    split at h
    · rename_i i hi
      rcases decodeLine_ok hi with ⟨_, ⟨_, _, _, e⟩ | ⟨_, _, _, e⟩ | ⟨_, _, d, _, _, e⟩ | ⟨_, _, d, _, e⟩⟩ <;>
        (rw [e] at h hi)
      · exact .rd8 l rest _ t hp hi h
      · exact .rd32 l rest _ t hp hi h
      · exact .wr8 l rest _ _ t hp hi h
      · exact .wr32 l rest _ _ t hp hi h
    · cases h

end Sys2Proof.Machine
end

