-- ==== Sys2Proof/Laws/PerInstr.lean ====
section
/-! SUPPORT. Per-instruction laws about the syntax: each instruction's encoded word meets the mask and
match of its row in spec/opcode_table.json. -/

namespace Sys2Proof.Laws.TableRow

/-- The word a table row's mask applies to: D, W, or the header H. -/
def firstWord : Encoded → Word
  | .cmd d => d
  | .tsh w => w
  | .bus l => l.header.setWidth 32

/-- The mask of the instruction's row. -/
def rowMask : Instr → Word
  | .nop => 0xFFFFFFFF#32
  | .init => 0xFFFFFFFF#32
  | .absorb => 0xFFFFFFFF#32
  | .start _ => 0x00400000#32
  | .continuation _ => 0x00400020#32
  | .completion _ => 0x00400020#32
  | .rd8 _ => 0x0000F000#32
  | .rd32 _ => 0x0000F000#32
  | .wr8 _ _ => 0x0000F000#32
  | .wr32 _ _ => 0x0000F000#32

/-- The match of the instruction's row. -/
def rowMatch : Instr → Word
  | .nop => 0x00000000#32
  | .init => 0x00000001#32
  | .absorb => 0x00000002#32
  | .start _ => 0x00400000#32
  | .continuation _ => 0x00000000#32
  | .completion _ => 0x00000020#32
  | .rd8 _ => 0x00000000#32
  | .rd32 _ => 0x00004000#32
  | .wr8 _ _ => 0x00008000#32
  | .wr32 _ _ => 0x0000C000#32

/-- A well-formed instruction's word meets its row. -/
def Statement (i : Instr) : Prop := i.wf = true → firstWord (encode i) &&& rowMask i = rowMatch i

theorem headerWord_pusi (h : TsHeader) (b : Bool) : (headerWord h b).getLsbD 22 = b := by
  unfold headerWord
  simp only [BitVec.getLsbD_append, BitVec.getLsbD_ofBool]
  simp

theorem headerWord_hasAf (h : TsHeader) (b : Bool) : (headerWord h b).getLsbD 5 = h.hasAf := by
  rw [TsHeader.hasAf_eq]
  unfold headerWord
  simp only [BitVec.getLsbD_append]
  simp

/-- The address never reaches the row's bits of H. -/
theorem busHeader_row (kind : BitVec 16) (a : Addr) :
    (busHeader kind a).setWidth 32 &&& 0x0000F000#32 = kind.setWidth 32 &&& 0x0000F000#32 := by
  refine BitVec.eq_of_getLsbD_eq fun i hi => ?_
  simp only [BitVec.getLsbD_and, BitVec.getLsbD_setWidth, busHeader_getLsbD]
  by_cases h : i < 12
  · have : (0x0000F000#32).getLsbD i = false := by interval_cases i <;> rfl
    simp [this]
  · simp [BitVec.getLsbD_of_ge a i (by omega)]

theorem nop : Statement .nop := by intro _; decide
theorem init : Statement .init := by intro _; decide
theorem absorb : Statement .absorb := by intro _; decide
theorem start (h : TsHeader) : Statement (.start h) := fun _ =>
  (startMask_iff _).mpr (headerWord_pusi h true)
theorem continuation (h : TsHeader) : Statement (.continuation h) := fun hw =>
  (continuationMask_iff _).mpr ⟨headerWord_pusi h false,
    (headerWord_hasAf h false).trans (by simpa [Instr.wf] using hw)⟩
theorem completion (h : TsHeader) : Statement (.completion h) := fun hw =>
  (completionMask_iff _).mpr ⟨headerWord_pusi h false, (headerWord_hasAf h false).trans (by simpa [Instr.wf] using hw)⟩
theorem rd8 (a : Addr) : Statement (.rd8 a) := fun _ => (busHeader_row _ a).trans rfl
theorem rd32 (a : Addr) : Statement (.rd32 a) := fun _ => (busHeader_row _ a).trans rfl
theorem wr8 (a : Addr) (d : Byte) : Statement (.wr8 a d) := fun _ => (busHeader_row _ a).trans rfl
theorem wr32 (a : Addr) (d : Word) : Statement (.wr32 a d) := fun _ => (busHeader_row _ a).trans rfl

end Sys2Proof.Laws.TableRow
end

