-- ==== Sys2Proof/Tests/Slice0.lean ====
section
/-! SUPPORT. Tests of the model, their values taken from spec/95_test_vectors.md and spec/30_encoding.md,
and, for every obligation with hypotheses, a concrete state and operands that meet them (`witness_…`). -/

namespace Sys2Proof.Tests

open Sys2Proof.Machine

set_option Elab.async false

/-! ### WellFormed refuses each ill-formed term -/

/-- A header with the given AFC. -/
def headerAfc (afc : BitVec 2) : TsHeader :=
  { sync := 0x47, tei := false, prio := false, pid := 0x100, tsc := 0, afc := afc, cc := 1 }

theorem test_wf_refuses_continuation_afc2 : (Instr.continuation (headerAfc 2)).wf = false := by decide
theorem test_wf_refuses_continuation_afc3 : (Instr.continuation (headerAfc 3)).wf = false := by decide
theorem test_wf_refuses_completion_afc0 : (Instr.completion (headerAfc 0)).wf = false := by decide
theorem test_wf_refuses_completion_afc1 : (Instr.completion (headerAfc 1)).wf = false := by decide

/-! ### Words written out from the spec's encodings (30_encoding.md R81, R88, R90) -/

-- D = OPCODE 0, 1, 2 in bits [7:0].
theorem test_decode_nop : decodeTableWord 32 0x00000000 = some .nop := by decide
theorem test_decode_init : decodeTableWord 32 0x00000001 = some .init := by decide
theorem test_decode_absorb : decodeTableWord 32 0x00000002 = some .absorb := by decide
-- W1 row 47 5F FF 3A: PUSI 1, PID 8191, AFC 3, CC 10.
theorem test_decode_start : decode (.tsh 0x475FFF3A#32) = .ok (.start ⟨0x47, false, false, 8191, 0, 3, 10⟩) := by decide
-- W1 row FF E0 00 FF: SYNC 0xFF, TEI 1, PUSI 1, PRIO 1, PID 0, TSC 3, AFC 3, CC 15.
theorem test_decode_start_all_flags :
    decode (.tsh 0xFFE000FF#32) = .ok (.start ⟨0xFF, true, true, 0, 3, 3, 15⟩) := by decide
-- W1 rows 47 1F FF 1F and 47 00 00 2F.
theorem test_decode_continuation :
    decode (.tsh 0x471FFF1F#32) = .ok (.continuation ⟨0x47, false, false, 8191, 0, 1, 15⟩) := by decide
theorem test_decode_completion :
    decode (.tsh 0x4700002F#32) = .ok (.completion ⟨0x47, false, false, 0, 0, 2, 15⟩) := by decide
-- The rows' own fixed bits, numbered as the table numbers them.
theorem test_decode_table_start :
    decodeTableWord 24 0x400000 = some (.start ⟨0, false, false, 0, 0, 0, 0⟩) := by decide
theorem test_decode_table_continuation :
    decodeTableWord 24 0x000000 = some (.continuation ⟨0, false, false, 0, 0, 0, 0⟩) := by decide
theorem test_decode_table_completion :
    decodeTableWord 24 0x000020 = some (.completion ⟨0, false, false, 0, 0, 2, 0⟩) := by decide
-- H = W, S, 00, address; D in the bits above (95_test_vectors.md 2.7).
theorem test_decode_rd8 : decodeTableWord 16 0x0108 = some (.rd8 0x108) := by decide
theorem test_decode_rd32 : decodeTableWord 16 0x4104 = some (.rd32 0x104) := by decide
theorem test_decode_wr8 : decodeTableWord 48 0x000000168003 = some (.wr8 0x003 0x16) := by decide
theorem test_decode_wr32 : decodeTableWord 48 0x15010147C000 = some (.wr32 0x000 0x15010147) := by decide
theorem test_decode_refuses_reserved_header_bits : decodeTableWord 16 0x5104 = none := by decide
theorem test_decode_refuses_wide_wr8 : decodeTableWord 48 0x000001168003 = none := by decide

/-! ### Helpers -/

/-- A packet: its first bytes, then a fill byte (R97). -/
def packet (head : Bytes) (fill : Byte) : Bytes := head ++ List.replicate (188 - head.length) fill

/-- The state after SETCFG 0x100, raw and CMD_INIT ("From INIT" of 95_test_vectors.md). -/
def fresh (cap : Nat) (raw : Bool) : State := initialise { State.resetWith cap with config := { pid := 0x100, raw := raw } }

/-- A state whose packet buffer holds the packet. -/
def holding (p : Bytes) (s : State) : State := { s with pkt := Memory.ofBytes 0 p }

/-- A state in the middle of a unit. -/
def midUnit (cap : Nat) (cc : BitVec 4) : State :=
  { fresh cap false with fsm := .assembling, lastCc := some cc, asmBuf := List.replicate 170 0xA0#8
                         result := { code := .started, cause := .none, unexpectedPid := false,
                                     sinkWritten := false, appended := 170 } }

/-- What a next state shows; none where there is none. -/
def seen {α : Type} (f : State → α) : Host.Outcome State Fault Refusal → Option α
  | .next s => some (f s)
  | .fault _ => none
  | .refused _ => none

/-- S(cc) of W2: a start packet with a 14-byte PES header, PTS 900000, and 170 payload bytes. -/
def startPacket (cc : Byte) : Bytes :=
  packet [0x47, 0x41, 0x00, 0x10 ||| cc, 0x00, 0x00, 0x01, 0xC0, 0x00, 0x00, 0x80, 0x80, 0x05, 0x21, 0x00, 0x37, 0x77, 0x41] 0xA0

/-- C(cc) of W2. -/
def contPacket (cc : Byte) : Bytes := packet [0x47, 0x01, 0x00, 0x10 ||| cc] 0xB0

/-- E(cc) of W2. -/
def endPacket (cc : Byte) : Bytes := packet [0x47, 0x01, 0x00, 0x30 ||| cc, 0x01, 0x00] 0xC0

/-- The packet whose adaptation field fails: AFC 2, L = 184 (95_test_vectors.md 2.2). -/
def badAfPacket (cc : Byte) : Bytes := packet [0x47, 0x01, 0x00, 0x20 ||| cc, 0xB8, 0x00] 0x00

/-- The start packet of W7 whose PES header is one byte too long. -/
def longHeaderPacket : Bytes :=
  packet [0x47, 0x41, 0x00, 0x10, 0x00, 0x00, 0x01, 0xC0, 0x00, 0x00, 0x80, 0x80, 0xB0, 0x21, 0x00, 0x37, 0x77, 0x41] 0xFF

/-! ### One step of each instruction (95_test_vectors.md) -/

-- 2.6: NOP keeps CMD_ERR.
theorem test_nop_keeps_cmd_err : seen State.statusWord (exec .nop { fresh 184 false with cmdErr := true }) = some 0x01010000 := by
  decide +kernel
-- 2.6: INIT with CONFIG 0x101, from the middle of a unit with both errors set.
theorem test_init_status :
    seen State.statusWord
      (exec .init { midUnit 184 3 with config := { pid := 0x101, raw := false }, cmdErr := true, busErr := true })
      = some 0x00010100 := by decide +kernel
-- W2, first packet.
theorem test_absorb_start :
    seen (fun t => (t.result.word, t.statusWord, t.asmLen)) (exec .absorb (holding (startPacket 15) (fresh 1000 false)))
      = some (0x00AA0002, 0x000100F3, 170) := by decide +kernel
-- W3: the PCR of a packet that is lost.
theorem test_absorb_pcr :
    seen (fun t => (t.result.word, t.af.fieldsWord, t.af.pcrBase, t.af.pcrTicks))
      (exec .absorb (holding (packet [0x47, 0x01, 0x00, 0x20, 0x07, 0x10, 0x00, 0x00, 0x01, 0xF4, 0x7E, 0x00] 0) (fresh 1000 false)))
      = some (0x00000061, 0x03001007, 1000, 300000) := by decide +kernel
-- W7: the header of 185 bytes.
theorem test_start_truncated_header :
    seen (fun t => (t.result.word, t.statusWord, t.pes.fieldsWord, t.pes.statusWord))
      (exec (.start (Spec.header longHeaderPacket)) (holding longHeaderPacket (fresh 1000 false)))
      = some (0x00000031, 0x00010000, 0xB0020000, 0x000200B9) := by decide +kernel
-- W4: the PTS of S(0).
theorem test_start_pts :
    seen (fun t => (t.pes.pts, t.pes.ptsValid, t.pes.idWord))
      (exec (.start (Spec.header (startPacket 0))) (holding (startPacket 0) (fresh 1000 false)))
      = some (900000, true, 0xC0000001) := by decide +kernel
-- W2: C(0) after CC 15 wraps; C(2) does not follow.
theorem test_continuation_wraps :
    seen (fun t => (t.result.word, t.statusWord, t.asmLen))
      (exec (.continuation (Spec.header (contPacket 0))) (holding (contPacket 0) { midUnit 354 15 with result := ResultReg.zero }))
      = some (0x00B80003, 0x00010003, 354) := by decide +kernel
-- Program 4's rule R198 at one byte less than W2 needs.
theorem test_continuation_overflow :
    seen (fun t => (t.result.code, t.result.cause, t.statusWord))
      (exec (.continuation (Spec.header (contPacket 0))) (holding (contPacket 0) (midUnit 353 15)))
      = some (.lost, .bufferOverflow, 0x00010002) := by decide +kernel
-- W2's last packet: 170 + 182 bytes from a unit of one start packet.
theorem test_completion_finishes :
    seen (fun t => (t.statusWord, t.sinkLen, t.sinkLog))
      (exec (.completion (Spec.header (endPacket 1))) (holding (endPacket 1) (midUnit 352 0)))
      = some (0x00010012, 352, [List.replicate 170 0xA0#8 ++ List.replicate 182 0xC0#8]) := by decide +kernel
-- 2.7: the bus from reset.
theorem test_rd8_outside_packet :
    seen (fun t => (t.hostReads, t.statusWord)) (exec (.rd8 0x108) (State.resetWith 184))
      = some ([.byte 0], 0x02000000) := by decide +kernel
theorem test_rd32_lanes :
    seen (fun t => t.hostReads) (exec (.rd32 0x000) (holding [0x47, 0x01, 0x01, 0x15] (State.resetWith 184)))
      = some [.word 0x15010147] := by decide +kernel
theorem test_rd32_misaligned :
    seen (fun t => (t.hostReads, t.busErr)) (exec (.rd32 0x102) (State.resetWith 184))
      = some ([.word 0], true) := by decide +kernel
theorem test_wr8_packet_byte :
    seen (fun t => t.pkt) (exec (.wr8 0x003 0x16) (holding [0x47, 0x01, 0x01, 0x15] (State.resetWith 184)))
      = some (Memory.ofBytes 0 [0x47, 0x01, 0x01, 0x16]) := by decide +kernel
theorem test_wr8_command_runs_nothing :
    seen (fun t => t.statusWord) (exec (.wr8 0x100 0x02) (State.resetWith 184)) = some 0x02000000 := by decide +kernel
theorem test_wr32_config :
    seen (fun t => t.config.word) (exec (.wr32 0x104 0xFFFFFFFF) (State.resetWith 184)) = some 0x00011FFF := by decide +kernel
theorem test_wr32_packet :
    seen (fun t => t.pkt) (exec (.wr32 0x000 0x15010147) (State.resetWith 184))
      = some (Memory.ofBytes 0 [0x47, 0x01, 0x01, 0x15]) := by decide +kernel

/-! ### Host text (R95 to R97) -/

theorem test_text_transaction :
    parseLine "  rd32 RESULT -> 0x00B60204   ; 4108".toList = .ok (some (.transaction (.rd32 0x108) (some 0x00B60204))) := by
  decide +kernel
theorem test_text_packet :
    parseLine "FEED 47 01*2 | fill A0".toList
      = .ok (some (.feed { items := [(0x47, 1), (0x01, 2)], fill := some 0xA0 })) := by decide +kernel
theorem test_text_refuses_short_packet :
    (HostLine.ldpkt { items := [(0x47, 187)], fill := none }).expand = .error .badPacket := by decide +kernel
theorem test_text_refuses_config_out_of_range : (HostLine.setcfg 8192 0).expand = .error .badConfig := by decide

/-! ### Witnesses -/

theorem witness_DecodeOfEncodeIsTheInstruction :
    (Instr.start (headerAfc 2)).wf = true ∧ (Instr.continuation (headerAfc 1)).wf = true
      ∧ (Instr.completion (headerAfc 3)).wf = true := by decide

theorem witness_EncodeOfDecodeIsTheWord : decode (.bus ⟨0x80BB#16, some 0x000000FF#32⟩) = .ok (.wr8 0x0BB 0xFF) := by decide

theorem witness_IllFormedListingLinesAreRefused :
    (0x5104#16).extractLsb' 12 2 ≠ 0#2
      ∧ (0x8003#16).extractLsb' 12 4 = 0x8#4 ∧ (0x00000100#32).extractLsb' 8 24 ≠ 0#24 := by decide

theorem witness_StepRunsTheDecodedTransaction :
    ((State.resetWith 184).pushLine ⟨0x410C#16, none⟩).hostProgram = ⟨0x410C#16, none⟩ :: []
      ∧ decode (.bus ⟨0x410C#16, none⟩) = .ok (.rd32 0x10C) ∧ (State.resetWith 184).hostProgram = [] := by decide

theorem witness_CommandWriteRunsTheDecodedCommand : decode (.cmd 0x00000002#32) = .ok .absorb := by decide

/-- A buffer that holds a whole packet, as every statement about ABSORB asks. -/
theorem snapshot_holding (p : Bytes) (s : State) (h : p.length = 188) : snapshot (holding p s) = some p :=
  (snapshot_eq_some _ p).mpr ⟨h, fun i _ => by simp [holding, Memory.read_ofBytes]⟩

theorem packet_length (head : Bytes) (fill : Byte) (h : head.length ≤ 188) : (packet head fill).length = 188 := by
  simp only [packet, List.length_append, List.length_replicate]
  omega

theorem startPacket_length (cc : Byte) : (startPacket cc).length = 188 := packet_length _ _ (by simp)
theorem contPacket_length (cc : Byte) : (contPacket cc).length = 188 := packet_length _ _ (by simp)
theorem endPacket_length (cc : Byte) : (endPacket cc).length = 188 := packet_length _ _ (by simp)

/-- A written packet of each class. -/
theorem witness_snapshot :
    snapshot (holding (startPacket 15) (fresh 184 false)) = some (startPacket 15)
      ∧ snapshot (holding (contPacket 0) (midUnit 354 15)) = some (contPacket 0)
      ∧ snapshot (holding (endPacket 1) (midUnit 352 0)) = some (endPacket 1) :=
  ⟨snapshot_holding _ _ (startPacket_length 15), snapshot_holding _ _ (contPacket_length 0),
    snapshot_holding _ _ (endPacket_length 1)⟩

theorem witness_AbsorbRunsTheDecodedPacketClass :
    snapshot (holding (contPacket 0) (midUnit 354 15)) = some (contPacket 0)
      ∧ (0x47010010#32 : Word) = Spec.byte (contPacket 0) 0 ++ Spec.byte (contPacket 0) 1 ++ Spec.byte (contPacket 0) 2
          ++ Spec.byte (contPacket 0) 3
      ∧ decode (.tsh 0x47010010#32) = .ok (.continuation ⟨0x47, false, false, 0x100, 0, 1, 0⟩) :=
  ⟨snapshot_holding _ _ (contPacket_length 0), by decide +kernel⟩

theorem witness_PlacedWordIsTheNextToRun :
    (decodeTableWord 48 0x00000001C100 = some (.wr32 0x100 1) ∧ encode (.wr32 0x100 1) = .bus ⟨0xC100#16, some 1#32⟩)
      ∧ (decodeTableWord 32 2 = some .absorb ∧ encode .absorb = .cmd 2#32)
      ∧ decodeTableWord 24 0x000020 = some (.completion ⟨0, false, false, 0, 0, 2, 0⟩)
      ∧ encode (.completion ⟨0, false, false, 0, 0, 2, 0⟩) = .tsh 0x00000020#32 := by decide

/-- A state of the invariant: a block fresh from reset whose host has still to issue l. -/
theorem blank_inv (l : List BusLine) : ({ State.resetWith 184 with hostProgram := l } : State).Inv where
  pktWf := rfl
  capBounds := ⟨Nat.le_refl 184, show (184 : Nat) ≤ 4294967295 by decide⟩
  bufFits := Nat.zero_le _
  idleEmpty := fun _ => rfl
  openHasCc := fun h => by cases h
  openIffResult := show Fsm.idle = .assembling ↔ Code.none = .started ∨ Code.none = .continued by decide
  resultSound := show ResultReg.zero.sound from ⟨by decide, by decide, by decide⟩
  tshAgrees := show TshBank.zero.agrees from
    ⟨by decide, by decide, by decide, by decide, by decide, by decide, by decide, by decide⟩
  afSound := afZero_sound
  pesSound := pesZero_sound
  unitsFit := fun _ h => by cases h
  sinkLenLast := .inl rfl

theorem witness_StepKeepsTheInvariant :
    ∃ s t : State, s.Inv ∧ step s = .next t ∧ t.config = { pid := 0x1FFF, raw := true } :=
  ⟨_, _, blank_inv [⟨0xC104#16, some 0xFFFFFFFF#32⟩], rfl, by decide⟩

theorem witness_IdleImpliesEmptyBufferOnEveryRun :
    ∃ t, runsTo 1 (State.reset.load [cmdWrite 0x00000001#32]) t ∧ t.fsm = .idle := ⟨_, ⟨_, rfl, rfl⟩, rfl⟩

theorem witness_ReservedCommandSetsOnlyCmdErr :
    ((3#32 : Word) ≠ 0 ∧ (3#32 : Word) ≠ 1 ∧ (3#32 : Word) ≠ 2) ∧ (0x00000102#32 : Word) ≠ 2 := by decide

theorem witness_AdaptationFieldBankByLengthAndPcrFlag :
    (Spec.header (contPacket 0)).hasAf = false
      ∧ ((Spec.header (badAfPacket 0)).hasAf = true ∧ Spec.afLen (badAfPacket 0) > 183)
      ∧ ((Spec.header (endPacket 0)).hasAf = true ∧ Spec.afLen (endPacket 0) ≤ 183
          ∧ (Spec.byte (endPacket 0) 5).getLsbD 4 = false)
      ∧ (Spec.afLen (packet [0x47, 0x01, 0x00, 0x20, 0xB7, 0x10] 0xFF) ≤ 183
          ∧ (Spec.byte (packet [0x47, 0x01, 0x00, 0x20, 0xB7, 0x10] 0xFF) 5).getLsbD 4 = true) := by decide +kernel

theorem witness_PesBankAfterStart :
    Spec.afOk (Spec.header (startPacket 0)) (startPacket 0) = true
      ∧ Spec.afOk (Spec.header (badAfPacket 0)) (badAfPacket 0) = false := by decide +kernel

/-- A packet with PTS_DTS_FLAGS 2, HDR_DATA_LEN 175 (the most that fits) and the PTS 2^33 - 1 with every marker bit 0. -/
def maxPtsPacket : Bytes :=
  packet [0x47, 0x41, 0x00, 0x10, 0x00, 0x00, 0x01, 0xC0, 0x00, 0x00, 0x80, 0x80, 0xAF, 0x0E, 0xFF, 0xFE, 0xFF, 0xFE] 0xFF

theorem witness_TimestampIgnoresMarkerBits :
    snapshot (holding maxPtsPacket (fresh 184 false)) = some maxPtsPacket
      ∧ (headerAfc 1).hasAf = false ∧ Spec.ptsDtsFlags maxPtsPacket 4 = 2#2 ∧ Spec.headerLength maxPtsPacket 4 ≤ 184
      ∧ Spec.byte maxPtsPacket 13 = 0#4 ++ (0x1FFFFFFFF#33).extractLsb' 30 3 ++ 0#1
      ∧ Spec.byte maxPtsPacket 14 = (0x1FFFFFFFF#33).extractLsb' 22 8
      ∧ Spec.byte maxPtsPacket 15 = (0x1FFFFFFFF#33).extractLsb' 15 7 ++ 0#1
      ∧ Spec.byte maxPtsPacket 16 = (0x1FFFFFFFF#33).extractLsb' 7 8
      ∧ Spec.byte maxPtsPacket 17 = (0x1FFFFFFFF#33).extractLsb' 0 7 ++ 0#1 :=
  ⟨snapshot_holding _ _ (packet_length _ _ (by decide)), by decide +kernel⟩

theorem witness_StartTakesItsRow :
    snapshot (holding (startPacket 0) (fresh 184 false)) = some (startPacket 0)
      ∧ (Spec.startRow (Spec.header (startPacket 0)) (startPacket 0) (fresh 184 false)).code = .started
      ∧ (Spec.startRow (Spec.header longHeaderPacket) longHeaderPacket (fresh 184 false)).code = .lost :=
  ⟨snapshot_holding _ _ (startPacket_length 0), by decide +kernel⟩

theorem witness_ContinuationTakesItsRow :
    snapshot (holding (contPacket 0) (midUnit 354 15)) = some (contPacket 0)
      ∧ (Instr.continuation (Spec.header (contPacket 0))).wf = true
      ∧ (Spec.nonStartRow (Spec.header (contPacket 0)) (contPacket 0) (midUnit 354 15)).code = .continued
      ∧ (Spec.nonStartRow (Spec.header (contPacket 0)) (contPacket 0) (midUnit 353 15)).code = .lost :=
  ⟨snapshot_holding _ _ (contPacket_length 0), by decide +kernel⟩

theorem witness_CompletionTakesItsRow :
    snapshot (holding (endPacket 1) (midUnit 352 0)) = some (endPacket 1)
      ∧ (Instr.completion (Spec.header (endPacket 1))).wf = true
      ∧ (Spec.nonStartRow (Spec.header (endPacket 1)) (endPacket 1) (midUnit 352 0)).code = .finished
      ∧ (Spec.nonStartRow (Spec.header (endPacket 1)) (endPacket 1) (midUnit 351 0)).code = .lost :=
  ⟨snapshot_holding _ _ (endPacket_length 1), by decide +kernel⟩

theorem witness_AbsorbLeavesTheHostSide :
    Spec.pusi (contPacket 0) = false
      ∧ (absorbStep (contPacket 0) (midUnit 354 15)).result.code ≠ .finished
      ∧ (absorbStep (endPacket 1) (midUnit 352 0)).result.code = .finished := by decide +kernel

theorem witness_AbsorbDependsOnlyOnTheAssemblerState :
    ∃ s s' : State, s ≠ s' ∧ snapshot s = some (contPacket 0) ∧ snapshot s' = some (contPacket 0)
      ∧ s'.config.raw = s.config.raw ∧ s'.fsm = s.fsm ∧ s'.lastCc = s.lastCc ∧ s'.trackedPid = s.trackedPid
      ∧ s'.asmBuf = s.asmBuf ∧ s'.asmCap = s.asmCap :=
  ⟨holding (contPacket 0) (midUnit 354 15), holding (contPacket 0) { midUnit 354 15 with cmdErr := true, sinkLog := [[1]] },
    by decide +kernel, snapshot_holding _ _ (contPacket_length 0), snapshot_holding _ _ (contPacket_length 0), rfl, rfl,
    rfl, rfl, rfl, rfl⟩

theorem witness_IgnoredHeaderFieldsNeverChangeATransition :
    ∃ (s s' : State) (p q : Bytes), p ≠ q ∧ snapshot s = some p ∧ snapshot s' = some q ∧ s' = { s with pkt := s'.pkt }
      ∧ q.drop 4 = p.drop 4 ∧ Spec.pusi q = Spec.pusi p ∧ (Spec.header q).hasAf = (Spec.header p).hasAf
      ∧ (Spec.header q).cc = (Spec.header p).cc :=
  ⟨holding (contPacket 0) (midUnit 354 15), holding (packet [0x00, 0xBF, 0xFF, 0xD0] 0xB0) (midUnit 354 15),
    contPacket 0, packet [0x00, 0xBF, 0xFF, 0xD0] 0xB0, by decide +kernel,
    snapshot_holding _ _ (contPacket_length 0), snapshot_holding _ _ (packet_length _ _ (by decide)), rfl, by decide +kernel⟩

theorem startPacket_good (cc : Byte) (h : cc < 16) : Spec.isGoodStart (startPacket cc) := by
  have key : ∀ n : Fin 16, (startPacket (BitVec.ofNat 8 n)).length = 188 ∧ Spec.pusi (startPacket (BitVec.ofNat 8 n)) = true
      ∧ Spec.afOk (Spec.header (startPacket (BitVec.ofNat 8 n))) (startPacket (BitVec.ofNat 8 n)) = true
      ∧ Spec.pesStatus (startPacket (BitVec.ofNat 8 n))
          (Spec.payloadAt (Spec.header (startPacket (BitVec.ofNat 8 n))) (startPacket (BitVec.ofNat 8 n))) = .none := by
    decide +kernel
  have hn : cc.toNat < 16 := h
  have := key ⟨cc.toNat, hn⟩
  rwa [BitVec.ofNat_toNat, BitVec.setWidth_eq] at this

/-- The unit S(15) C(0) E(1): 170 + 184 + 182 bytes in a buffer that just holds them. -/
theorem witness_UnitIsTheConcatenationOfItsPackets :
    Spec.isGoodStart (startPacket 15) ∧ (∀ p ∈ [contPacket 0], Spec.isContinuation p) ∧ Spec.isCompletion (endPacket 1)
      ∧ Spec.ccChain (Spec.header (startPacket 15)).cc ([contPacket 0] ++ [endPacket 1])
      ∧ (Spec.unitOf (fresh 536 false).config.raw (startPacket 15) [contPacket 0] (endPacket 1)).length
          ≤ (fresh 536 false).asmCap := by
  refine ⟨startPacket_good 15 (by decide), ?_, ?_, ⟨by decide +kernel, by decide +kernel, trivial⟩, by decide +kernel⟩
  · intro p hp
    rw [List.mem_singleton.mp hp]
    exact ⟨by decide +kernel, by decide +kernel, by decide +kernel⟩
  · exact ⟨by decide +kernel, by decide +kernel, by decide +kernel, by decide +kernel⟩

theorem witness_StartDiscardsTheOpenUnit :
    (holding (startPacket 0) (midUnit 354 15)).fsm = .assembling
      ∧ snapshot (holding (startPacket 0) (midUnit 354 15)) = some (startPacket 0) ∧ Spec.isGoodStart (startPacket 0) :=
  ⟨rfl, snapshot_holding _ _ (startPacket_length 0), startPacket_good 0 (by decide)⟩

theorem witness_FirstNonStartPacketAfterResetIsLost :
    (contPacket 0).length = 188 ∧ Spec.pusi (contPacket 0) = false := by decide +kernel

/-- A block whose whole packet buffer holds the byte 7. -/
def sevens : State := holding (List.replicate 188 7#8) (State.resetWith 184)

theorem witness_ByteReadReturnsThePacketByte :
    ((0x0BB#12).toNat ≤ 0x0BB ∧ sevens.pkt.read (0x0BB#12).toNat = some 7) ∧ (0x0BC#12).toNat > 0x0BB := by decide +kernel

theorem witness_WordReadReturnsPacketRegisterOrZero :
    ((0x0B8#12).toNat % 4 = 0 ∧ (0x0B8#12).toNat ≤ 0x0B8 ∧ sevens.pkt.read 0x0B8 = some 7 ∧ sevens.pkt.read 0x0B9 = some 7
        ∧ sevens.pkt.read 0x0BA = some 7 ∧ sevens.pkt.read 0x0BB = some 7)
      ∧ (regAt (0x100#12).toNat = some .cmd ∧ regAt (0x168#12).toNat = some .dtsHi)
      ∧ ((0x0BC#12).toNat % 4 = 0 ∧ (0x0BC#12).toNat ≥ 0x0BC ∧ regAt (0x0BC#12).toNat = none
          ∧ regAt (0xFFC#12).toNat = none)
      ∧ (0x0BB#12).toNat % 4 ≠ 0
      ∧ ((0x0B8#12).toNat % 4 = 0 ∧ 3 < 4
          ∧ (holding (List.replicate 187 7#8) (State.resetWith 184)).pkt.read ((0x0B8#12).toNat + 3) = none) := by decide +kernel

theorem witness_ByteWriteChangesOnlyThatByte : (0x0BB#12).toNat ≤ 0x0BB ∧ (0x0BC#12).toNat > 0x0BB := by decide

theorem witness_WordWriteChangesOnlyItsFourBytes :
    ((0x0B8#12).toNat % 4 = 0 ∧ (0x0B8#12).toNat ≤ 0x0B8) ∧ (0x101#12).toNat % 4 ≠ 0 := by decide

theorem witness_ByteWriteReadsBackInItsLane :
    (0x0BB#12).toNat ≤ 0x0BB ∧ ∀ k, k < 4 → sevens.pkt.read ((0x0BB#12).toNat / 4 * 4 + k) ≠ none := by decide +kernel

theorem witness_WritesToReadOnlyAndReservedAreIgnored :
    (0x0BC#12).toNat % 4 = 0 ∧ (0x0BC#12).toNat ≥ 0x0BC ∧ (0x0BC#12) ≠ 0x100#12 ∧ (0x0BC#12) ≠ 0x104#12
      ∧ (0x108#12) ≠ 0x104#12 := by decide

theorem witness_UnwrittenPacketByteFaults :
    (187 < 188 ∧ (holding (List.replicate 187 7#8) (State.resetWith 184)).pkt.read 187 = none)
      ∧ (0x0BB#12).toNat = 187 ∧ ((0x0B8#12).toNat % 4 = 0 ∧ (0x0B8#12).toNat ≤ 187 ∧ 187 < (0x0B8#12).toNat + 4) := by
  decide +kernel

theorem witness_WrittenPacketNeverStops :
    snapshot (sevens.pushLine ⟨0xC100#16, some 2#32⟩) = some (List.replicate 188 7#8)
      ∧ ∀ l rest, (sevens.pushLine ⟨0xC100#16, some 2#32⟩).hostProgram = l :: rest → ∃ i, decode (.bus l) = .ok i := by
  refine ⟨(snapshot_congr rfl).trans (snapshot_holding _ (State.resetWith 184) (List.length_replicate ..)), fun l rest h => ?_⟩
  injection h with h _
  subst h
  exact ⟨.wr32 0x100 2, by decide⟩

theorem witness_SinkLogIsAppendOnly :
    seen (fun t => t.sinkLog.length) (step ((holding (endPacket 1) (midUnit 352 0)).pushLine ⟨0xC100#16, some 2#32⟩)) = some 1 := by
  decide +kernel

theorem witness_StickyBitsChangeOnlyByTheirRules :
    seen (fun t => (t.cmdErr, t.busErr))
        (step (State.pushLine ⟨0xC100#16, some 1#32⟩ { State.resetWith 184 with cmdErr := true, busErr := true }))
        = some (false, false)
      ∧ seen (fun t => t.cmdErr) (step ((State.resetWith 184).pushLine ⟨0xC100#16, some 3#32⟩)) = some true
      ∧ seen (fun t => t.busErr) (step ((State.resetWith 184).pushLine ⟨0x4102#16, none⟩)) = some true
      ∧ seen (fun t => t.busErr) (step ((State.resetWith 184).pushLine ⟨0x80BC#16, some 0#32⟩)) = some true := by
  decide +kernel

theorem witness_PacketAndConfigChangeOnlyByTheHost :
    seen (fun t => decide (t.pkt ≠ sevens.pkt)) (step (sevens.pushLine ⟨0x80BB#16, some 8#32⟩)) = some true
      ∧ seen (fun t => decide (t.config ≠ sevens.config)) (step (sevens.pushLine ⟨0xC104#16, some 8#32⟩)) = some true := by
  decide +kernel

theorem witness_TrackedPidChangesOnlyByInitOrStart :
    seen (fun t => t.trackedPid)
        (step (State.pushLine ⟨0xC100#16, some 1#32⟩ { State.resetWith 184 with config := { pid := 5, raw := false } }))
        = some 5
      ∧ seen (fun t => t.trackedPid)
          (step ((holding (startPacket 0) (State.resetWith 184)).pushLine ⟨0xC100#16, some 2#32⟩)) = some 0x100 := by
  decide +kernel

theorem witness_ReadsHaveNoSideEffect :
    (∃ t, exec (.rd8 0x0BC) sevens = .next t ∧ t.busErr ≠ sevens.busErr)
      ∧ ∃ t, exec (.rd32 0x102) sevens = .next t ∧ t.busErr ≠ sevens.busErr :=
  ⟨⟨_, rfl, by decide⟩, ⟨_, rfl, by decide⟩⟩

theorem witness_LoadPacketFillsTheWholeBuffer :
    sevens.hostProgram = [] ∧ sevens.pkt.wf = true ∧ (startPacket 0).length = 188 := by decide +kernel

/-- An ABSORB of a written packet completes. -/
theorem absorb_completes (s : State) (p : Bytes) (h : snapshot s = some p) : ∃ t, exec .absorb s = .next t :=
  ⟨_, (exec_absorb s).trans (onPacket_next h)⟩

theorem witness_FeedAbsorbsThePacket :
    sevens.hostProgram = [] ∧ sevens.pkt.wf = true ∧ (startPacket 0).length = 188
      ∧ ∃ t, exec .absorb (holding (startPacket 0) sevens) = .next t :=
  ⟨by decide +kernel, by decide +kernel, by decide +kernel, absorb_completes _ _ (snapshot_holding _ _ (startPacket_length 0))⟩

theorem witness_ConfigureThenInitTracksThePid : sevens.hostProgram = [] := rfl

end Sys2Proof.Tests
end

section
/-! PROOFS. What a step can do to the state, said once: `StepKind` with every arm resolved to one of the named
operations, each with the transaction that has it. -/

namespace Sys2Proof.Machine

/-- The host's next transaction is one that raises BusError (R65, R266): a misaligned 32-bit access, or an
8-bit access outside PKT. -/
def issuesIllegalAccess (s : State) : Prop :=
  (∃ a, (Spec.issues s (.rd32 a) ∨ ∃ d, Spec.issues s (.wr32 a d)) ∧ a.toNat % 4 ≠ 0)
    ∨ ∃ a, (Spec.issues s (.rd8 a) ∨ ∃ d, Spec.issues s (.wr8 a d)) ∧ a.toNat > 0x0BB

/-- The effects a step that answers next can have, each with the transaction that has it: `StepKind` with every
arm resolved to one of the named operations. -/
inductive StepEffect (s : State) : State → Prop where
  | nothingToIssue : StepEffect s s
  | ignored (rest : List BusLine) : StepEffect s (popped rest s)
  | read (rest : List BusLine) (v : HostRead) : StepEffect s (returnRead v (popped rest s))
  | illegalRead (rest : List BusLine) (v : HostRead) :
      issuesIllegalAccess s → StepEffect s (returnRead v (raiseBusError (popped rest s)))
  | illegalWrite (rest : List BusLine) : issuesIllegalAccess s → StepEffect s (raiseBusError (popped rest s))
  | byteWritten (rest : List BusLine) (a : Addr) (d : Byte) :
      Spec.issues s (.wr8 a d) → a.toNat ≤ 187 → StepEffect s (writeByte a.toNat d (popped rest s))
  | wordWritten (rest : List BusLine) (a : Addr) (d : Word) :
      Spec.issues s (.wr32 a d) → a.toNat ≤ 184 → StepEffect s (writeWord a.toNat d (popped rest s))
  | configured (rest : List BusLine) (d : Word) :
      Spec.issues s (.wr32 0x104#12 d) → StepEffect s (setConfig (configOf d) (popped rest s))
  | initialised (rest : List BusLine) :
      Spec.issues s (.wr32 0x100#12 0x00000001#32) → StepEffect s (initialise (popped rest s))
  | absorbed (rest : List BusLine) (p : Bytes) :
      Spec.issues s (.wr32 0x100#12 0x00000002#32) → snapshot s = some p → StepEffect s (absorbStep p (popped rest s))
  | reservedCommand (rest : List BusLine) (d : Word) :
      Spec.issues s (.wr32 0x100#12 d) → decode (.cmd d) = .error .reservedCommand →
      StepEffect s (raiseCommandError (popped rest s))

/-- A word that is no command decodes to nothing (R88). -/
theorem decode_cmd_reserved {d : Word} (h0 : d ≠ 0) (h1 : d ≠ 1) (h2 : d ≠ 2) :
    decode (.cmd d) = .error .reservedCommand := by
  rcases commandOf_cases d with ⟨h, _⟩ | ⟨h, _⟩ | ⟨h, _⟩ | ⟨_, _, _, e⟩
  · exact absurd h h0
  · exact absurd h h1
  · exact absurd h h2
  · simp [decode, e]

/-- The effects of a WR32 to CMD (R220 to R224). -/
theorem stepEffect_of_runCommand {s t : State} {rest : List BusLine} {d : Word}
    (hi : Spec.issues s (.wr32 0x100#12 d)) (h : runCommand d (popped rest s) = .next t) : StepEffect s t := by
  rcases runCommand_cases d (popped rest s) with ⟨-, e⟩ | ⟨hd, e⟩ | ⟨hd, e⟩ | ⟨h0, h1, h2, e⟩ <;> rw [e] at h
  · cases h; exact .ignored rest
  · cases h; exact .initialised rest (by subst hd; exact hi)
  · obtain ⟨p, hp, rfl⟩ := onPacket_eq_next h
    exact .absorbed rest p (by subst hd; exact hi) ((snapshot_congr rfl).symm.trans hp)
  · cases h; exact .reservedCommand rest d hi (decode_cmd_reserved h0 h1 h2)

/-- Every step that answers next has one of the effects. -/
theorem step_effect {s t : State} (h : step s = .next t) : StepEffect s t := by
  cases step_next h with
  | idle _ => exact .nothingToIssue
  | rd8 l rest a _ hp hl he =>
    rcases execRd8_next he with ⟨_, b, _, rfl⟩ | ⟨ha, rfl⟩
    · exact .read rest (.byte b)
    · exact .illegalRead rest _ (.inr ⟨a, .inl ⟨l, rest, hp, hl⟩, ha⟩)
  | rd32 l rest a _ hp hl he =>
    rcases execRd32_next he with ⟨_, w, rfl⟩ | ⟨ha, rfl⟩
    · exact .read rest (.word w)
    · exact .illegalRead rest _ (.inl ⟨a, .inl ⟨l, rest, hp, hl⟩, ha⟩)
  | wr8 l rest a d _ hp hl he =>
    have hi : Spec.issues s (.wr8 a d) := ⟨l, rest, hp, hl⟩
    rcases execWr8_cases a d (popped rest s) with ⟨ha, e⟩ | ⟨ha, e⟩ <;> rw [e] at he <;> cases he
    · exact .byteWritten rest a d hi ha
    · exact .illegalWrite rest (.inr ⟨a, .inr ⟨d, hi⟩, ha⟩)
  | wr32 l rest a d _ hp hl he =>
    have hi : Spec.issues s (.wr32 a d) := ⟨l, rest, hp, hl⟩
    rcases execWr32_cases a d (popped rest s) with ⟨ha, e⟩ | ⟨_, ha, e⟩ | ⟨ha, e⟩ | ⟨ha, e⟩ | ⟨_, _, _, _, e⟩ <;>
      rw [e] at he
    · cases he; exact .illegalWrite rest (.inl ⟨a, .inr ⟨d, hi⟩, ha⟩)
    · cases he; exact .wordWritten rest a d hi ha
    · subst ha; exact stepEffect_of_runCommand hi he
    · subst ha; cases he; exact .configured rest d hi
    · cases he; exact .ignored rest

end Sys2Proof.Machine
end

section
/-! PROOFS. How each packet class ends, in the spec's own terms: the shared failure or its own last operations, together
with the row of R206. -/

namespace Sys2Proof.Machine

/-! ### The packet bits the machine and the spec's terms share -/

theorem headerOf_tshWord_eq_header (p : Bytes) : headerOf (tshWord p) = Spec.header p := headerOf_tshWord p

theorem tshParse_pusi (p : Bytes) : (tshParse p).pusi = Spec.pusi p := by rw [tshParse_eq]; rfl

/-- ABSORB after its front runs the class of the packet's PUSI and HAS_AF (R89, R181). -/
theorem absorbStep_eq (p : Bytes) (s : State) : absorbStep p s =
    if Spec.pusi p then startStep (Spec.header p) p (absorbFront p s)
    else if (Spec.header p).hasAf then completionStep (Spec.header p) p (absorbFront p s)
    else continuationStep (Spec.header p) p (absorbFront p s) := by
  rw [absorbStep, absorbDispatch_eq, headerOf_tshWord_eq_header, tshParse_pusi]

/-- The continuity check of the machine is the spec's counter sequence modulo 16 (R190). -/
theorem ccOk_eq_inSequence (cc : BitVec 4) (last : Option (BitVec 4)) : ccOk cc last = Spec.inSequence cc last := by
  rw [Bool.eq_iff_iff, ccOk_iff]
  cases last <;> simp [Spec.inSequence]

theorem ptsDtsFlags_eq_ofNat (p : Bytes) (off : Nat) :
    Spec.ptsDtsFlags p off = BitVec.ofNat 2 (ptsDtsFlagsOf p off) := (ptsDtsFlagsOf_eq p off).symm

/-- The bytes the selected timestamps reach to (R161). -/
theorem timestampReach_eq (p : Bytes) (off : Nat) : Spec.timestampReach p off = pesNeed (ptsDtsFlagsOf p off) := by
  have h0 : Spec.ptsDtsFlags p off = 0#2 ↔ ptsDtsFlagsOf p off = 0 := by
    rw [ptsDtsFlags_eq_ofNat]; exact ptsDtsFlags_eq_iff p off 0 (by decide)
  have h3 : Spec.ptsDtsFlags p off = 3#2 ↔ ptsDtsFlagsOf p off = 3 := by
    rw [ptsDtsFlags_eq_ofNat]; exact ptsDtsFlags_eq_iff p off 3 (by decide)
  simp only [Spec.timestampReach, pesNeed, h0, h3]
  split
  · rfl
  · split <;> rfl

theorem startCode_eq_one_iff (p : Bytes) (off : Nat) : Spec.startCode p off = 1#24 ↔ startCodeOf p off = 1 := by
  rw [startCodeOf_eq_one, startCodeOf_eq]; rfl

/-- The failure PES_PARSE reports is the spec's status, none for OK (R152, R170). -/
theorem pesParse_failure_eq (p : Bytes) (off : Nat) : (pesParse p off).failure =
    if Spec.pesStatus p off = .none then none else some (Spec.pesStatus p off) := by
  have hlen : Spec.headerLength p off = hdrTotalLenOf p off := rfl
  have hreach := timestampReach_eq p off
  have hcode := startCode_eq_one_iff p off
  unfold Spec.pesStatus
  rcases pesParse_cases p off with ⟨h1, e⟩ | ⟨h1, h2, e⟩ | ⟨h1, h2, h3, e⟩ | ⟨h1, h2, h3, e⟩ <;> rw [e]
  · simp [show off > 179 by omega]
  · simp [show ¬ off > 179 by omega, hlen, h2]
  · simp [show ¬ off > 179 by omega, show ¬ off + Spec.headerLength p off > 188 by omega, hreach, h3]
  · by_cases hc : startCodeOf p off = 1 <;>
      simp [show ¬ off > 179 by omega, show ¬ off + Spec.headerLength p off > 188 by omega,
        show ¬ off + Spec.timestampReach p off > 188 by omega, hcode, hc]

/-! ### An opened unit -/

@[simp] theorem opened_pkt (h : TsHeader) (s : State) : (opened h s).pkt = s.pkt := by simp [opened]
@[simp] theorem opened_config (h : TsHeader) (s : State) : (opened h s).config = s.config := by simp [opened]
@[simp] theorem opened_fsm (h : TsHeader) (s : State) : (opened h s).fsm = .assembling := rfl
@[simp] theorem opened_lastCc (h : TsHeader) (s : State) : (opened h s).lastCc = s.lastCc := by simp [opened]
@[simp] theorem opened_trackedPid (h : TsHeader) (s : State) : (opened h s).trackedPid = h.pid := by simp [opened]
@[simp] theorem opened_asmBuf (h : TsHeader) (s : State) : (opened h s).asmBuf = [] := rfl
@[simp] theorem opened_result (h : TsHeader) (s : State) : (opened h s).result =
    { s.result with unexpectedPid := s.result.unexpectedPid || decide (h.pid ≠ s.trackedPid) } := by simp [opened]
@[simp] theorem opened_sinkLen (h : TsHeader) (s : State) : (opened h s).sinkLen = s.sinkLen := by simp [opened]
@[simp] theorem opened_tsh (h : TsHeader) (s : State) : (opened h s).tsh = s.tsh := by simp [opened]
@[simp] theorem opened_af (h : TsHeader) (s : State) : (opened h s).af = s.af := by simp [opened]
@[simp] theorem opened_pes (h : TsHeader) (s : State) : (opened h s).pes = s.pes := by simp [opened]
@[simp] theorem opened_sinkLog (h : TsHeader) (s : State) : (opened h s).sinkLog = s.sinkLog := by simp [opened]
@[simp] theorem opened_asmCap (h : TsHeader) (s : State) : (opened h s).asmCap = s.asmCap := by simp [opened]

/-! ### How each packet class ends, in the rows of R206 -/

theorem afOk_of_noAf {h : TsHeader} {p : Bytes} (ha : h.hasAf = false) : Spec.afOk h p = true := by
  simp [Spec.afOk, ha]

theorem afLen_eq (p : Bytes) : Spec.afLen p = byteAt p 4 := rfl

theorem afOk_iff_of_af {h : TsHeader} {p : Bytes} (ha : h.hasAf = true) :
    Spec.afOk h p = true ↔ byteAt p 4 ≤ 183 := by
  unfold Spec.afOk
  rw [ha]
  exact decide_eq_true_iff

theorem payloadAt_of_noAf {h : TsHeader} {p : Bytes} (ha : h.hasAf = false) : Spec.payloadAt h p = 4 := by
  simp [Spec.payloadAt, ha]

theorem payloadAt_of_af {h : TsHeader} {p : Bytes} (ha : h.hasAf = true) :
    Spec.payloadAt h p = 5 + byteAt p 4 := by
  simp [Spec.payloadAt, ha, afLen_eq]

theorem four_le_payloadAt (h : TsHeader) (p : Bytes) : 4 ≤ Spec.payloadAt h p := by
  unfold Spec.payloadAt; split <;> omega

theorem four_le_startTailAt (h : TsHeader) (p : Bytes) (raw : Bool) : 4 ≤ Spec.startTailAt h p raw := by
  have := four_le_payloadAt h p
  unfold Spec.startTailAt; split <;> omega

/-- START by the spec's test of the adaptation field (R185, R186). -/
theorem startStep_eq (h : TsHeader) (p : Bytes) (s : State) : startStep h p s =
    if Spec.afOk h p then startParsed h p (Spec.payloadAt h p) (opened h s) else lose .truncAf (opened h s) := by
  rcases startStep_cases h p s with ⟨ha, e⟩ | ⟨ha, hl, e⟩ | ⟨ha, hl, e⟩ <;> rw [e]
  · rw [if_pos (afOk_of_noAf ha), payloadAt_of_noAf ha]
  · rw [if_pos ((afOk_iff_of_af ha).mpr hl), payloadAt_of_af ha]
  · rw [if_neg (mt (afOk_iff_of_af ha).mp (by omega))]

/-- The PES bank a START leaves: that of PES_PARSE at the payload, or the old one after an adaptation-field
failure (R151, R185). -/
def startPes (h : TsHeader) (p : Bytes) (s : State) : PesBank :=
  if Spec.afOk h p then (pesParse p (Spec.payloadAt h p)).bank else s.pes

theorem startPes_sound (h : TsHeader) (p : Bytes) {s : State} (hs : s.pes.sound) : (startPes h p s).sound := by
  unfold startPes
  split
  · exact pesParse_sound p _
  · exact hs

/-- A START ends in a LOST row by the shared failure, or in the STARTED row by an append to the open unit. -/
theorem startStep_outcome (h : TsHeader) (p : Bytes) (s : State) :
    (∃ c, c ≠ .none ∧ Spec.startRow h p s = Spec.lostRow c s.lastCc
        ∧ startStep h p s = lose c (setPes (startPes h p s) (opened h s)))
      ∨ (Spec.startRow h p s =
            { code := .started, cause := .none, fsm := .assembling, lastCc := some h.cc
              buf := p.drop (Spec.startTailAt h p s.config.raw), units := [] }
          ∧ startStep h p s = finish .started .none (recordCc h.cc
              (bufAppend p (Spec.startTailAt h p s.config.raw) 188 (setPes (startPes h p s) (opened h s))))) := by
  rw [startStep_eq]
  by_cases hok : Spec.afOk h p = true
  · have hpes : startPes h p s = (pesParse p (Spec.payloadAt h p)).bank := if_pos hok
    have hfail := pesParse_failure_eq p (Spec.payloadAt h p)
    rw [if_pos hok, hpes]
    rcases startParsed_cases h p (Spec.payloadAt h p) (opened h s) with ⟨c, hc, e⟩ | ⟨hn, e⟩ <;> rw [e]
    · obtain ⟨hst, rfl⟩ : Spec.pesStatus p (Spec.payloadAt h p) ≠ .none
          ∧ Spec.pesStatus p (Spec.payloadAt h p) = c := by
        simpa [hfail] using hc
      exact .inl ⟨_, hst, by simp [Spec.startRow, hok, hst], rfl⟩
    · have hst : Spec.pesStatus p (Spec.payloadAt h p) = .none := by simpa [hfail] using hn
      refine .inr ⟨by simp [Spec.startRow, hok, hst], ?_⟩
      rw [opened_config]
      rfl
  · have hpes : startPes h p s = (opened h s).pes := (if_neg hok).trans (opened_pes h s).symm
    refine .inl ⟨.truncAf, by decide, by simp [Spec.startRow, hok], ?_⟩
    rw [if_neg hok, hpes]
    rfl

/-- A non-start packet that fails takes the LOST row with its own counter recorded; one that is accepted is left
to the rule of its class (R190 to R193). -/
theorem nonStart_outcome (h : TsHeader) (p : Bytes) (f : State → State) (s : State) :
    (∃ c, c ≠ .none ∧ Spec.nonStartRow h p s = Spec.lostRow c (some h.cc)
        ∧ nonStart h.cc f s = lose c (recordCc h.cc s))
      ∨ (Spec.inSequence h.cc s.lastCc = true ∧ s.fsm = .assembling ∧ nonStart h.cc f s = f (recordCc h.cc s)) := by
  rw [← ccOk_eq_inSequence]
  rcases nonStart_cases h.cc f s with ⟨hcc, e⟩ | ⟨hcc, hf, e⟩ | ⟨hcc, hf, e⟩
  · refine .inl ⟨.continuityBroken, by decide, ?_, e⟩
    rw [ccOk_eq_inSequence] at hcc
    simp [Spec.nonStartRow, hcc]
  · refine .inl ⟨.notAssembling, by decide, ?_, e⟩
    rw [ccOk_eq_inSequence] at hcc
    simp [Spec.nonStartRow, hcc, hf]
  · exact .inr ⟨hcc, hf, e⟩

/-- A CONTINUATION ends in a LOST row, or appends its 184 payload bytes to the open unit (R194, R198). -/
theorem continuationStep_outcome {h : TsHeader} (ha : h.hasAf = false) (p : Bytes) (s : State) :
    (∃ c, c ≠ .none ∧ Spec.nonStartRow h p s = Spec.lostRow c (some h.cc)
        ∧ continuationStep h p s = lose c (recordCc h.cc s))
      ∨ (s.fsm = .assembling ∧ s.asmBuf.length + 184 ≤ s.asmCap
          ∧ Spec.nonStartRow h p s =
            { code := .continued, cause := .none, fsm := .assembling, lastCc := some h.cc
              buf := s.asmBuf ++ p.drop 4, units := [] }
          ∧ continuationStep h p s = finish .continued .none (bufAppend p 4 188 (recordCc h.cc s))) := by
  unfold continuationStep
  rcases nonStart_outcome h p (continueAccepted p) s with hlost | ⟨hcc, hf, e⟩
  · exact .inl hlost
  · rw [e]
    rcases continueAccepted_cases p (recordCc h.cc s) with ⟨hov, e'⟩ | ⟨hfit, e'⟩ <;> rw [e']
    · refine .inl ⟨.bufferOverflow, by decide, ?_, rfl⟩
      simp only [recordCc_asmCap, recordCc_asmBuf] at hov
      simp [Spec.nonStartRow, hcc, hf, afOk_of_noAf ha, payloadAt_of_noAf ha, hov]
    · simp only [recordCc_asmCap, recordCc_asmBuf] at hfit
      refine .inr ⟨hf, hfit, ?_, rfl⟩
      simp [Spec.nonStartRow, hcc, hf, afOk_of_noAf ha, payloadAt_of_noAf ha, ha, Nat.not_lt.mpr hfit]

/-- A COMPLETION ends in a LOST row, or appends its payload and writes the unit (R195 to R198). -/
theorem completionStep_outcome {h : TsHeader} (ha : h.hasAf = true) (p : Bytes) (s : State) :
    (∃ c, c ≠ .none ∧ Spec.nonStartRow h p s = Spec.lostRow c (some h.cc)
        ∧ completionStep h p s = lose c (recordCc h.cc s))
      ∨ (s.asmBuf.length + (188 - Spec.payloadAt h p) ≤ s.asmCap
          ∧ Spec.nonStartRow h p s =
            { code := .finished, cause := .none, fsm := .idle, lastCc := some h.cc
              buf := [], units := [s.asmBuf ++ p.drop (Spec.payloadAt h p)] }
          ∧ completionStep h p s = finish .finished .none (setFsm .idle (bufClear (sinkWrite
              (bufAppend p (Spec.payloadAt h p) 188 (recordCc h.cc s)))))) := by
  unfold completionStep
  rcases nonStart_outcome h p (completeAccepted h p) s with hlost | ⟨hcc, hf, e⟩
  · exact .inl hlost
  · rw [e]
    rcases completeAccepted_cases h p (recordCc h.cc s) ha with ⟨hl, e'⟩ | ⟨hl, e'⟩ <;> rw [e']
    · have hbad : Spec.afOk h p = false := by simpa using mt (afOk_iff_of_af ha).mp (by omega)
      exact .inl ⟨.truncAf, by decide, by simp [Spec.nonStartRow, hcc, hf, hbad], rfl⟩
    · have hok := (afOk_iff_of_af (p := p) ha).mpr hl
      rw [← payloadAt_of_af ha]
      rcases completeFrom_cases p (Spec.payloadAt h p) (recordCc h.cc s) with ⟨hov, e''⟩ | ⟨hfit, e''⟩ <;> rw [e'']
      · refine .inl ⟨.bufferOverflow, by decide, ?_, rfl⟩
        simp only [recordCc_asmCap, recordCc_asmBuf] at hov
        simp [Spec.nonStartRow, hcc, hf, hok, hov]
      · simp only [recordCc_asmCap, recordCc_asmBuf] at hfit
        refine .inr ⟨hfit, ?_, rfl⟩
        simp [Spec.nonStartRow, hcc, hf, hok, ha, Nat.not_lt.mpr hfit]

end Sys2Proof.Machine
end

section
/-! PROOFS. How an ABSORB ends, for all classes at once, and what that says of RESULT, the sink, TRACKED_PID and the PES
bank. -/

namespace Sys2Proof.Machine

/-! ### ABSORB ends in one of three ways -/

/-- What holds of a state `u` inside an ABSORB of `p` from `s`, after the front and the first effects of the class
(re-tracking or the counter) and before its outcome (R180 to R192). -/
structure Dispatched (p : Bytes) (s u : State) : Prop where
  pkt : u.pkt = s.pkt
  asmCap : u.asmCap = s.asmCap
  trackedPid : u.trackedPid = if Spec.pusi p then (Spec.header p).pid else s.trackedPid
  unexpectedPid : u.result.unexpectedPid = (Spec.pusi p && decide ((Spec.header p).pid ≠ s.trackedPid))
  sinkWritten : u.result.sinkWritten = false
  appended : u.result.appended = 0
  sinkLen : u.sinkLen = s.sinkLen
  sinkLog : u.sinkLog = s.sinkLog
  tsh : u.tsh = tshParse p
  af : u.af = if (tshParse p).hasAf then afParse p else s.af
  pes : Spec.pusi p = false → u.pes = s.pes
  pesSound : s.pes.sound → u.pes.sound

theorem Dispatched.recordCc {p : Bytes} {s u : State} (h : Dispatched p s u) (cc : BitVec 4) :
    Dispatched p s (recordCc cc u) :=
  ⟨h.pkt, h.asmCap, h.trackedPid, h.unexpectedPid, h.sinkWritten, h.appended, h.sinkLen, h.sinkLog, h.tsh, h.af,
    h.pes, h.pesSound⟩

theorem dispatched_start {p : Bytes} (hp : Spec.pusi p = true) (s : State) :
    Dispatched p s
      (setPes (startPes (Spec.header p) p (absorbFront p s)) (opened (Spec.header p) (absorbFront p s))) := by
  constructor
  case unexpectedPid => rw [setPes_result, opened_result, hp]; rfl
  case pesSound => exact startPes_sound (s := absorbFront p s) _ p
  all_goals simp [hp]

theorem dispatched_nonStart {p : Bytes} (hp : Spec.pusi p = false) (s : State) : Dispatched p s (absorbFront p s) := by
  constructor <;> simp [hp]

/-- The ways an ABSORB of `p` from `s` ends, each by its last operations and with its row of R206. -/
inductive AbsorbEnd (p : Bytes) (s : State) : State → Prop where
  | lost (c : Cause) (u : State) : Dispatched p s u → c ≠ .none → Spec.row p s = Spec.lostRow c u.lastCc →
      AbsorbEnd p s (lose c u)
  | stillOpen (code : Code) (lo : Nat) (u : State) : Dispatched p s u → code = .started ∨ code = .continued →
      u.fsm = .assembling → u.lastCc ≠ none → 4 ≤ lo →
      Spec.appendedCount (Spec.header p) p s.config.raw code = 188 - lo →
      u.asmBuf = [] ∨ u.asmBuf.length + (188 - lo) ≤ s.asmCap →
      Spec.row p s = { code := code, cause := .none, fsm := .assembling, lastCc := u.lastCc
                       buf := u.asmBuf ++ p.drop lo, units := [] } →
      AbsorbEnd p s (finish code .none (bufAppend p lo 188 u))
  | finished (lo : Nat) (u : State) : Dispatched p s u → 4 ≤ lo →
      Spec.appendedCount (Spec.header p) p s.config.raw .finished = 188 - lo →
      u.asmBuf.length + (188 - lo) ≤ s.asmCap →
      Spec.row p s = { code := .finished, cause := .none, fsm := .idle, lastCc := u.lastCc
                       buf := [], units := [u.asmBuf ++ p.drop lo] } →
      AbsorbEnd p s (finish .finished .none (setFsm .idle (bufClear (sinkWrite (bufAppend p lo 188 u)))))

theorem absorbEnd_of_start {p : Bytes} (hp : Spec.pusi p = true) (s : State) :
    AbsorbEnd p s (startStep (Spec.header p) p (absorbFront p s)) := by
  have hd := dispatched_start hp s
  have hrow : Spec.row p s = Spec.startRow (Spec.header p) p (absorbFront p s) := if_pos hp
  rcases startStep_outcome (Spec.header p) p (absorbFront p s) with ⟨c, hc, hr, e⟩ | ⟨hr, e⟩ <;> rw [e]
  · exact .lost c _ hd hc (by rw [hrow, hr]; simp)
  · exact .stillOpen .started _ _ (hd.recordCc _) (.inl rfl) (by simp) (by simp) (four_le_startTailAt ..) rfl
      (.inl (by simp)) (by rw [hrow, hr]; simp)

theorem absorbEnd_of_completion {p : Bytes} (hp : Spec.pusi p = false) (ha : (Spec.header p).hasAf = true)
    (s : State) : AbsorbEnd p s (completionStep (Spec.header p) p (absorbFront p s)) := by
  have hd := (dispatched_nonStart hp s).recordCc (Spec.header p).cc
  have hrow : Spec.row p s = Spec.nonStartRow (Spec.header p) p (absorbFront p s) := if_neg (by simp [hp])
  rcases completionStep_outcome ha p (absorbFront p s) with ⟨c, hc, hr, e⟩ | ⟨hfit, hr, e⟩ <;> rw [e]
  · exact .lost c _ hd hc (hrow.trans hr)
  · exact .finished _ _ hd (four_le_payloadAt ..) rfl hfit (hrow.trans hr)

theorem absorbEnd_of_continuation {p : Bytes} (hp : Spec.pusi p = false) (ha : (Spec.header p).hasAf = false)
    (s : State) : AbsorbEnd p s (continuationStep (Spec.header p) p (absorbFront p s)) := by
  have hd := (dispatched_nonStart hp s).recordCc (Spec.header p).cc
  have hrow : Spec.row p s = Spec.nonStartRow (Spec.header p) p (absorbFront p s) := if_neg (by simp [hp])
  rcases continuationStep_outcome ha p (absorbFront p s) with ⟨c, hc, hr, e⟩ | ⟨hf, hfit, hr, e⟩ <;> rw [e]
  · exact .lost c _ hd hc (hrow.trans hr)
  · exact .stillOpen .continued 4 _ hd (.inr rfl) hf (by simp) (le_refl 4) rfl (.inr hfit) (hrow.trans hr)

theorem absorbStep_end (p : Bytes) (s : State) : AbsorbEnd p s (absorbStep p s) := by
  rw [absorbStep_eq]
  split
  next hp => exact absorbEnd_of_start hp s
  next hp =>
    rw [Bool.not_eq_true] at hp
    split
    next ha => exact absorbEnd_of_completion hp ha s
    next ha => exact absorbEnd_of_continuation hp (by simpa using ha) s

/-! ### What every ABSORB does to RESULT, the sink, TRACKED_PID and the PES bank -/

/-- TRACKED_PID after an ABSORB (R183). -/
theorem AbsorbEnd.trackedPid {p : Bytes} {s t : State} (h : AbsorbEnd p s t) :
    t.trackedPid = if Spec.pusi p then (Spec.header p).pid else s.trackedPid := by
  cases h with
  | lost c u hd => exact hd.trackedPid
  | stillOpen code lo u hd => exact hd.trackedPid
  | finished lo u hd => exact hd.trackedPid

/-- Only a start packet writes the PES bank (R151). -/
theorem AbsorbEnd.pes_of_nonStart {p : Bytes} {s t : State} (h : AbsorbEnd p s t) (hp : Spec.pusi p = false) :
    t.pes = s.pes := by
  cases h with
  | lost c u hd => exact hd.pes hp
  | stillOpen code lo u hd => exact hd.pes hp
  | finished lo u hd => exact hd.pes hp

/-- ABSORB writes the sink exactly when it ends FINISHED, one unit whose length SINK_LEN takes (R35, R196). -/
theorem AbsorbEnd.sink {p : Bytes} {s t : State} (h : AbsorbEnd p s t) :
    (t.result.code ≠ .finished ∧ t.sinkLen = s.sinkLen ∧ t.sinkLog = s.sinkLog)
      ∨ (t.result.code = .finished ∧ ∃ u, t.sinkLog = s.sinkLog ++ [u] ∧ t.sinkLen = BitVec.ofNat 32 u.length) := by
  cases h with
  | lost c u hd => exact .inl ⟨by simp, hd.sinkLen, hd.sinkLog⟩
  | stillOpen code lo u hd hcode =>
    exact .inl ⟨by rcases hcode with rfl | rfl <;> simp, hd.sinkLen, hd.sinkLog⟩
  | finished lo u hd => exact .inr ⟨rfl, u.asmBuf ++ slice p lo 188, by simp [hd.sinkLog], by simp⟩

/-- The number of bytes an append counts in RESULT.APPENDED fits its 8 bits (R187, R194, R195). -/
theorem appended_toNat {lo : Nat} : (BitVec.ofNat 8 (188 - lo)).toNat = 188 - lo := by
  rw [BitVec.toNat_ofNat, Nat.mod_eq_of_lt (by omega)]

/-- CODE and CAUSE after an ABSORB are the row's (R206). -/
theorem AbsorbEnd.code_cause {p : Bytes} {s t : State} (h : AbsorbEnd p s t) :
    t.result.code = (Spec.row p s).code ∧ t.result.cause = (Spec.row p s).cause := by
  cases h with
  | lost c u _ _ hrow => rw [hrow]; exact ⟨rfl, rfl⟩
  | stillOpen code lo u _ _ _ _ _ _ _ hrow => rw [hrow]; exact ⟨rfl, rfl⟩
  | finished lo u _ _ _ _ hrow => rw [hrow]; exact ⟨rfl, rfl⟩

/-- The per-packet fields of RESULT after an ABSORB (R182, R183, R187, R194 to R196). -/
theorem AbsorbEnd.result_flags {p : Bytes} {s t : State} (h : AbsorbEnd p s t) :
    t.result.unexpectedPid = (Spec.pusi p && decide ((Spec.header p).pid ≠ s.trackedPid))
      ∧ t.result.sinkWritten = decide (t.result.code = .finished)
      ∧ t.result.appended.toNat = Spec.appendedCount (Spec.header p) p s.config.raw t.result.code := by
  cases h with
  | lost c u hd => exact ⟨hd.unexpectedPid, by simp [hd.sinkWritten], by simp [hd.appended, Spec.appendedCount]⟩
  | stillOpen code lo u hd hcode _ _ _ hcount =>
    refine ⟨hd.unexpectedPid, ?_, appended_toNat.trans hcount.symm⟩
    rcases hcode with rfl | rfl <;> simp [hd.sinkWritten]
  | finished lo u hd _ hcount => exact ⟨hd.unexpectedPid, rfl, appended_toNat.trans hcount.symm⟩

end Sys2Proof.Machine
end

section
/-! PROOFS. The invariant of the block: reset and INIT establish it, ABSORB and every other effect of a step keep it. -/

namespace Sys2Proof.Machine

theorem tshParse_agrees (p : Bytes) : (tshParse p).agrees := by
  have h : headerOf (tshParse p).word = _ := headerOf_eq_bank p
  simp only [headerOf, TsHeader.mk.injEq] at h
  obtain ⟨hsync, htei, hprio, hpid, htsc, hafc, hcc⟩ := h
  exact ⟨hsync.symm, htei.symm, (tshWord_pusi p).symm, hprio.symm, hpid.symm, htsc.symm, hafc.symm, hcc.symm⟩

theorem tshZero_agrees : TshBank.zero.agrees := by simp [TshBank.agrees, TshBank.zero]

/-- The invariant says nothing of CONFIG, TRACKED_PID, the sticky bits and the host's side. -/
theorem State.Inv.of_same_block {s t : State} (h : s.Inv)
    (e : t = { s with config := t.config, trackedPid := t.trackedPid, cmdErr := t.cmdErr, busErr := t.busErr
                      hostProgram := t.hostProgram, hostReads := t.hostReads }) : t.Inv := by
  rw [e]
  exact ⟨h.pktWf, h.capBounds, h.bufFits, h.idleEmpty, h.openHasCc, h.openIffResult, h.resultSound, h.tshAgrees,
    h.afSound, h.pesSound, h.unitsFit, h.sinkLenLast⟩

/-- A canonical PKT may stand in for the old one. -/
theorem State.Inv.with_pkt {s : State} (h : s.Inv) {m : Memory} (hm : m.wf = true) :
    ({ s with pkt := m } : State).Inv :=
  ⟨hm, h.capBounds, h.bufFits, h.idleEmpty, h.openHasCc, h.openIffResult, h.resultSound, h.tshAgrees, h.afSound,
    h.pesSound, h.unitsFit, h.sinkLenLast⟩

/-- INIT establishes the invariant but for PKT, ASM_CAP and the units, which it leaves (R222). -/
theorem initialise_inv {s : State} (hpkt : s.pkt.wf = true)
    (hcap : Config.asmCapMin ≤ s.asmCap ∧ s.asmCap ≤ Config.asmCapMax)
    (hunits : ∀ u ∈ s.sinkLog, u.length ≤ s.asmCap) :
    (initialise s).Inv where
  pktWf := hpkt
  capBounds := hcap
  bufFits := Nat.zero_le _
  idleEmpty := fun _ => rfl
  openHasCc := fun h => by cases h
  openIffResult := by simp [ResultReg.zero]
  resultSound := by simp [ResultReg.sound, ResultReg.zero]
  tshAgrees := tshZero_agrees
  afSound := afZero_sound
  pesSound := pesZero_sound
  unitsFit := hunits
  sinkLenLast := .inl rfl

/-- The part of the invariant that holds inside an ABSORB before its outcome, with the per-packet RESULT flags
cleared (R182): what the outcome still has to establish is the rest. -/
structure DispatchInv (u : State) : Prop where
  pktWf : u.pkt.wf = true
  capBounds : Config.asmCapMin ≤ u.asmCap ∧ u.asmCap ≤ Config.asmCapMax
  notWritten : u.result.sinkWritten = false
  noneAppended : u.result.appended = 0
  tshAgrees : u.tsh.agrees
  afSound : u.af.sound
  pesSound : u.pes.sound
  unitsFit : ∀ v ∈ u.sinkLog, v.length ≤ u.asmCap
  sinkLenLast : u.sinkLen = 0 ∨ ∃ v, u.sinkLog.getLast? = some v ∧ u.sinkLen.toNat = v.length

theorem Dispatched.inv {p : Bytes} {s u : State} (hd : Dispatched p s u) (hs : s.Inv) : DispatchInv u where
  pktWf := hd.pkt ▸ hs.pktWf
  capBounds := hd.asmCap ▸ hs.capBounds
  notWritten := hd.sinkWritten
  noneAppended := hd.appended
  tshAgrees := hd.tsh ▸ tshParse_agrees p
  afSound := by
    rw [hd.af]
    split
    · exact afParse_sound p
    · exact hs.afSound
  pesSound := hd.pesSound hs.pesSound
  unitsFit := by rw [hd.sinkLog, hd.asmCap]; exact hs.unitsFit
  sinkLenLast := by rw [hd.sinkLen, hd.sinkLog]; exact hs.sinkLenLast

/-- A failed packet leaves the invariant: IDLE, emptied, with its cause (R260). -/
theorem lose_inv {u : State} (h : DispatchInv u) {c : Cause} (hc : c ≠ .none) : (lose c u).Inv where
  pktWf := h.pktWf
  capBounds := h.capBounds
  bufFits := Nat.zero_le _
  idleEmpty := fun _ => rfl
  openHasCc := fun hf => by cases hf
  openIffResult := by simp
  resultSound := by simp [ResultReg.sound, hc, h.notWritten, h.noneAppended]
  tshAgrees := h.tshAgrees
  afSound := h.afSound
  pesSound := h.pesSound
  unitsFit := h.unitsFit
  sinkLenLast := h.sinkLenLast

theorem slice_length_le (p : Bytes) (lo hi : Nat) : (slice p lo hi).length ≤ hi - lo := List.length_take_le _ _

/-- A packet appended to an open unit that has room for it leaves the invariant (R187, R194). -/
theorem append_inv {u : State} (h : DispatchInv u) {code : Code} (hcode : code = .started ∨ code = .continued)
    (hf : u.fsm = .assembling) (hcc : u.lastCc ≠ none) (p : Bytes) {lo : Nat} (hlo : 4 ≤ lo)
    (hfit : u.asmBuf.length + (188 - lo) ≤ u.asmCap) : (finish code .none (bufAppend p lo 188 u)).Inv where
  pktWf := h.pktWf
  capBounds := h.capBounds
  bufFits := by
    have := slice_length_le p lo 188
    simp only [finish_asmBuf, bufAppend_asmBuf, List.length_append, finish_asmCap, bufAppend_asmCap]
    omega
  idleEmpty := fun hi => by simp [hf] at hi
  openHasCc := fun _ => hcc
  openIffResult := by simp [hf, hcode]
  resultSound := by
    refine ⟨?_, appended_toNat.trans_le (by omega), ?_⟩ <;>
      rcases hcode with rfl | rfl <;> simp [h.notWritten]
  tshAgrees := h.tshAgrees
  afSound := h.afSound
  pesSound := h.pesSound
  unitsFit := h.unitsFit
  sinkLenLast := h.sinkLenLast

/-- A completed unit leaves the invariant: it fits the buffer, and SINK_LEN is its length (R196). -/
theorem complete_inv {u : State} (h : DispatchInv u) (p : Bytes) {lo : Nat} (hlo : 4 ≤ lo)
    (hfit : u.asmBuf.length + (188 - lo) ≤ u.asmCap) :
    (finish .finished .none (setFsm .idle (bufClear (sinkWrite (bufAppend p lo 188 u))))).Inv := by
  have hunit : (u.asmBuf ++ slice p lo 188).length ≤ u.asmCap := by
    have := slice_length_le p lo 188
    rw [List.length_append]
    omega
  exact
    { pktWf := h.pktWf
      capBounds := h.capBounds
      bufFits := Nat.zero_le _
      idleEmpty := fun _ => rfl
      openHasCc := fun hf => by cases hf
      openIffResult := by simp
      resultSound := ⟨by simp, appended_toNat.trans_le (by omega), by simp⟩
      tshAgrees := h.tshAgrees
      afSound := h.afSound
      pesSound := h.pesSound
      unitsFit := fun v hv => by
        rcases List.mem_append.mp hv with hv | hv
        · exact h.unitsFit v hv
        · rw [List.mem_singleton.mp hv]; exact hunit
      sinkLenLast := .inr ⟨u.asmBuf ++ slice p lo 188, by simp, by
        have hmax : u.asmCap ≤ 4294967295 := h.capBounds.2
        simp only [finish_sinkLen, setFsm_sinkLen, bufClear_sinkLen, sinkWrite_sinkLen, bufAppend_asmBuf,
          BitVec.toNat_ofNat]
        exact Nat.mod_eq_of_lt (by omega)⟩ }

/-- ABSORB keeps the invariant. -/
theorem AbsorbEnd.inv {p : Bytes} {s t : State} (h : AbsorbEnd p s t) (hs : s.Inv) : t.Inv := by
  cases h with
  | lost c u hd hc => exact lose_inv (hd.inv hs) hc
  | stillOpen code lo u hd hcode hf hcc hlo _ hfit =>
    refine append_inv (hd.inv hs) hcode hf hcc p hlo ?_
    rw [hd.asmCap]
    rcases hfit with hempty | hfit
    · have hmin : 184 ≤ s.asmCap := hs.capBounds.1
      rw [hempty, List.length_nil]
      omega
    · exact hfit
  | finished lo u hd hlo _ hfit => exact complete_inv (hd.inv hs) p hlo (hd.asmCap ▸ hfit)

/-- Every step keeps the invariant. -/
theorem step_inv {s t : State} (hs : s.Inv) (h : step s = .next t) : t.Inv := by
  have hpop (rest : List BusLine) : (popped rest s).Inv := hs.of_same_block rfl
  cases step_effect h with
  | nothingToIssue => exact hs
  | ignored rest => exact hpop rest
  | read rest v => exact hs.of_same_block rfl
  | illegalRead rest v => exact hs.of_same_block rfl
  | illegalWrite rest => exact hs.of_same_block rfl
  | byteWritten rest a d _ ha =>
    exact (hpop rest).with_pkt (Memory.wf_write _ d hs.pktWf (Nat.lt_of_le_of_lt ha (by decide)))
  | wordWritten rest a d _ ha =>
    exact (hpop rest).with_pkt (Memory.wf_writeBytes _ _ hs.pktWf (Nat.add_le_add_right ha 4))
  | configured rest d => exact hs.of_same_block rfl
  | initialised rest => exact initialise_inv hs.pktWf hs.capBounds hs.unitsFit
  | absorbed rest p => exact (absorbStep_end p _).inv (hpop rest)
  | reservedCommand rest d => exact hs.of_same_block rfl

/-- Every run from a state of the invariant stays in it. -/
theorem runsTo_inv {k : Nat} {s t : State} (hs : s.Inv) (h : runsTo k s t) : t.Inv := by
  induction k generalizing s with
  | zero => exact h ▸ hs
  | succ k ih =>
    obtain ⟨m, hm, hrest⟩ := h
    exact ih (step_inv hs hm) hrest

/-- The reset state of every ASM_CAP that R8 allows meets the invariant: it is its own INIT. -/
theorem resetWith_inv {cap : Nat} (hmin : Config.asmCapMin ≤ cap) (hmax : cap ≤ Config.asmCapMax) :
    (State.resetWith cap).Inv :=
  initialise_inv (s := State.resetWith cap) rfl ⟨hmin, hmax⟩ (fun _ hu => by cases hu)

theorem asmCap_bounds : Config.asmCapMin ≤ Config.asmCap ∧ Config.asmCap ≤ Config.asmCapMax := by
  have := Config.asmCapExtra.isLt
  simp only [Config.asmCap, Config.asmCapMin, Config.asmCapMax]
  omega

/-- Settles O13: R8 bounds the open ASM_CAP, and reset is an INIT. -/
theorem resetMeetsTheInvariant : Obligations.ResetMeetsTheInvariant :=
  resetWith_inv asmCap_bounds.1 asmCap_bounds.2

/-- Settles O14, by the effect of the step. -/
theorem stepKeepsTheInvariant : Obligations.StepKeepsTheInvariant := fun _ _ => step_inv

/-- Settles O15: the invariant along the run, whose part on IDLE is R29. -/
theorem idleImpliesEmptyBufferOnEveryRun : Obligations.IdleImpliesEmptyBufferOnEveryRun := by
  intro prog k t hrun hidle
  have hload : (State.reset.load prog).Inv := resetMeetsTheInvariant.of_same_block rfl
  have hempty := (runsTo_inv hload hrun).idleEmpty hidle
  rw [State.asmLen, hempty, List.length_nil]

end Sys2Proof.Machine
end

section
/-! PROOFS. What ABSORB writes and leaves, and which steps change the sink log, the sticky bits, PKT, CONFIG and
TRACKED_PID. -/

namespace Sys2Proof.Machine

/-! ### ABSORB's result and frame -/

/-- Settles O27, by the way the ABSORB ends. -/
theorem absorbWritesEveryResultField : Obligations.AbsorbWritesEveryResultField := by
  intro s p hp
  have hend := absorbStep_end p s
  obtain ⟨hcode, hcause⟩ := hend.code_cause
  exact ⟨absorbStep p s, onPacket_next hp, hcode, hcause, hend.result_flags⟩

theorem KeepsHostSide.hostSideSame {s t : State} (h : KeepsHostSide s t) : Spec.hostSideSame s t :=
  ⟨h.pkt, h.config, h.cmdErr, h.busErr, h.asmCap, h.hostProgram, h.hostReads⟩

/-- Settles O29: the host's side by the frame of the classes, the sink by the way the ABSORB ends. -/
theorem absorbLeavesTheHostSide : Obligations.AbsorbLeavesTheHostSide := by
  intro s p hp
  have hend := absorbStep_end p s
  refine ⟨absorbStep p s, onPacket_next hp, (absorbStep_keeps p s).hostSideSame, hend.pes_of_nonStart, ?_⟩
  rcases hend.sink with ⟨hcode, hsink⟩ | ⟨hcode, hsink⟩
  · exact ⟨fun _ => hsink, fun h => absurd h hcode⟩
  · exact ⟨fun h => absurd hcode h, fun _ => hsink⟩

/-! ### What a step can change -/

/-- Settles O47: of the effects of a step only ABSORB reaches the sink. -/
theorem sinkLogIsAppendOnly : Obligations.SinkLogIsAppendOnly := by
  intro s t h
  cases step_effect h with
  | absorbed rest p hi _ =>
    rcases (absorbStep_end p (popped rest s)).sink with ⟨_, _, hlog⟩ | ⟨hcode, u, hlog, _⟩
    · exact .inl hlog
    · exact .inr ⟨hi, hcode, u, hlog⟩
  | _ => exact .inl rfl

/-- The ways a step can treat the sticky bits: neither changes, INIT clears both, or one is set by its own error
(R33, R266, R267). -/
theorem StepEffect.stickyBits {s t : State} (h : StepEffect s t) :
    (t.cmdErr = s.cmdErr ∧ t.busErr = s.busErr)
      ∨ (t.cmdErr = false ∧ t.busErr = false ∧ Spec.issues s (.wr32 0x100#12 0x00000001#32))
      ∨ (t.cmdErr = s.cmdErr ∧ t.busErr = true ∧ issuesIllegalAccess s)
      ∨ (t.cmdErr = true ∧ t.busErr = s.busErr
          ∧ ∃ d, Spec.issues s (.wr32 0x100#12 d) ∧ decode (.cmd d) = .error .reservedCommand) := by
  cases h with
  | illegalRead rest v hi => exact .inr (.inr (.inl ⟨rfl, rfl, hi⟩))
  | illegalWrite rest hi => exact .inr (.inr (.inl ⟨rfl, rfl, hi⟩))
  | initialised rest hi => exact .inr (.inl ⟨rfl, rfl, hi⟩)
  | absorbed rest p =>
    have hk := absorbStep_keeps p (popped rest s)
    exact .inl ⟨hk.cmdErr, hk.busErr⟩
  | reservedCommand rest d hi hd => exact .inr (.inr (.inr ⟨rfl, rfl, d, hi, hd⟩))
  | _ => exact .inl ⟨rfl, rfl⟩

/-- Settles O48, by the four ways a step can treat the two bits. -/
theorem stickyBitsChangeOnlyByTheirRules : Obligations.StickyBitsChangeOnlyByTheirRules := by
  intro s t h
  rcases (step_effect h).stickyBits with ⟨hc, hb⟩ | ⟨hc, hb, hi⟩ | ⟨hc, hb, hi⟩ | ⟨hc, hb, hi⟩
  · simp +contextual [hc, hb]
  · simp [hc, hb, hi]
  · exact ⟨by simp +contextual [hc], by simp [hb], by simp +contextual [hc], fun _ _ => hi⟩
  · exact ⟨by simp [hc], by simp +contextual [hb], fun _ _ => hi, by simp +contextual [hb]⟩

/-- Settles O49: of the effects of a step only the two PKT writes reach PKT and only a CONFIG write reaches CONFIG. -/
theorem packetAndConfigChangeOnlyByTheHost : Obligations.PacketAndConfigChangeOnlyByTheHost := by
  intro s t h
  cases step_effect h with
  | byteWritten rest a d hi ha => exact ⟨fun _ => ⟨a, ha, .inl ⟨d, hi⟩⟩, fun hc => absurd rfl hc, rfl⟩
  | wordWritten rest a d hi ha =>
    exact ⟨fun _ => ⟨a, Nat.le_trans ha (by decide), .inr ⟨d, hi⟩⟩, fun hc => absurd rfl hc, rfl⟩
  | configured rest d hi => exact ⟨fun hp => absurd rfl hp, fun _ => ⟨d, hi⟩, rfl⟩
  | absorbed rest p =>
    have hk := absorbStep_keeps p (popped rest s)
    exact ⟨fun hp => absurd hk.pkt hp, fun hc => absurd hk.config hc, hk.asmCap⟩
  | _ => exact ⟨fun hp => absurd rfl hp, fun hc => absurd rfl hc, rfl⟩

/-- Settles O50: of the effects of a step only INIT and ABSORB reach TRACKED_PID, and ABSORB re-tracks on a start
packet only. -/
theorem trackedPidChangesOnlyByInitOrStart : Obligations.TrackedPidChangesOnlyByInitOrStart := by
  intro s t h hne
  cases step_effect h with
  | initialised rest hi => exact .inl ⟨hi, rfl⟩
  | absorbed rest p hi hp =>
    have htracked := (absorbStep_end p (popped rest s)).trackedPid
    split at htracked
    next hpusi => exact .inr ⟨hi, p, hp, hpusi, htracked⟩
    next => exact absurd htracked hne
  | _ => exact absurd rfl hne

/-! ### Unwritten packet bytes -/

theorem execRd8_unwritten {a : Addr} {s : State} (ha : a.toNat ≤ 187) (h : s.pkt.read a.toNat = none) :
    execRd8 a s = .fault .unwrittenPacketByte := by
  rw [execRd8, if_pos ((inPkt_iff a).mpr ha), h]

theorem execRd32_unwritten {a : Addr} {s : State} (h4 : a.toNat % 4 = 0) (ha : a.toNat ≤ 187)
    (h : s.pkt.readBytes a.toNat 4 = none) : execRd32 a s = .fault .unwrittenPacketByte := by
  rw [execRd32, if_pos ((aligned_iff a).mpr h4), if_pos ((inPkt_iff a).mpr ha), h]

/-- Settles O42: the packet has no snapshot, and neither the byte nor its word can be read. -/
theorem unwrittenPacketByteFaults : Obligations.UnwrittenPacketByteFaults := by
  intro s k hk hread
  have hsnap : snapshot s = none := (snapshot_eq_none s).mpr ⟨k, hk, hread⟩
  refine ⟨onPacket_fault hsnap, ?rd8, ?rd32,
    fun h => ⟨onPacket_fault hsnap, onPacket_fault hsnap, onPacket_fault hsnap⟩⟩
  case rd8 =>
    rintro a rfl
    exact execRd8_unwritten (by omega) hread
  case rd32 =>
    intro a h4 hle hlt
    refine execRd32_unwritten h4 (by omega) ((Memory.readBytes_eq_none _ _ _).mpr ⟨k - a.toNat, by omega, ?_⟩)
    rwa [Nat.add_sub_cancel' hle]

end Sys2Proof.Machine
end

section
/-! PROOFS. Register words as the concatenation of their fields, and the values after reset. -/

namespace Sys2Proof.Machine

/-- A flag's number is its one-bit vector's. -/
theorem bit_eq_toNat (b : Bool) : bit b = (BitVec.ofBool b).toNat := by cases b <;> rfl

/-- A field placed right above the fields below it is a concatenation. -/
theorem or_shiftLeft_eq_append {m n : Nat} (x : BitVec m) (y : BitVec n) :
    y.toNat ||| x.toNat <<< n = (x ++ y).toNat := by rw [BitVec.toNat_append, Nat.or_comm]

/-- A field placed `k` reserved bits above the fields below it is a concatenation with `k` zeros between. -/
theorem or_shiftLeft_eq_append_zero_append {m n : Nat} (k : Nat) (x : BitVec m) (y : BitVec n) :
    y.toNat ||| x.toNat <<< (n + k) = (x ++ (0#k ++ y)).toNat := by
  rw [BitVec.toNat_append, BitVec.toNat_append, BitVec.toNat_ofNat, Nat.zero_mod, Nat.zero_shiftLeft, Nat.zero_or,
    Nat.or_comm, Nat.add_comm]

/-- A vector widened to a word has zeros above it. -/
theorem ofNat_toNat_eq_zero_append {n : Nat} (k : Nat) (x : BitVec n) : BitVec.ofNat (k + n) x.toNat = 0#k ++ x := by
  apply BitVec.eq_of_toNat_eq
  simp [BitVec.toNat_append, Nat.mod_eq_of_lt, Nat.lt_of_lt_of_le x.isLt (Nat.pow_le_pow_right _ (Nat.le_add_left n k))]

/-- STATUS as its fields joined, bit 31 first (R33). -/
theorem statusWord_eq (s : State) : s.statusWord =
    0#6 ++ (BitVec.ofBool s.busErr ++ (BitVec.ofBool s.cmdErr ++ (0#3 ++ (s.trackedPid ++ (s.lastCcVal ++ (0#2
      ++ (BitVec.ofBool s.lastCcValid ++ BitVec.ofBool (s.fsm == .assembling)))))))) := by
  simp only [State.statusWord, bit_eq_toNat, or_shiftLeft_eq_append, or_shiftLeft_eq_append_zero_append 2,
    or_shiftLeft_eq_append_zero_append 3]
  exact ofNat_toNat_eq_zero_append 6 _

/-- RESULT as its fields joined, bit 31 first (R30). -/
theorem ResultReg.word_eq (r : ResultReg) : r.word =
    0#8 ++ (r.appended ++ (0#6 ++ (BitVec.ofBool r.sinkWritten ++ (BitVec.ofBool r.unexpectedPid ++ (r.cause.bits
      ++ (0#1 ++ r.code.bits)))))) := by
  simp only [ResultReg.word, bit_eq_toNat, or_shiftLeft_eq_append, or_shiftLeft_eq_append_zero_append 1,
    or_shiftLeft_eq_append_zero_append 6]
  exact ofNat_toNat_eq_zero_append 8 _

theorem Code.bits_eq_codeNumber (c : Code) : c.bits = Spec.codeNumber c := by cases c <;> rfl

theorem Cause.bits_eq_causeNumber (c : Cause) : c.bits = Spec.causeNumber c := by cases c <;> rfl

/-- Settles O45: the fields are read off the two words as concatenations. -/
theorem resultAndStatusFieldPositions : Obligations.ResultAndStatusFieldPositions := by
  intro s
  refine ⟨?status, ?result, rfl, rfl⟩
  case status =>
    have hasm : (s.fsm == .assembling) = decide (s.fsm = .assembling) := rfl
    dsimp only [regValue]
    rw [statusWord_eq, hasm]
    simp (disch := decide) only [BitVec.getLsbD_append, BitVec.extractLsb'_append_eq_of_add_le,
      BitVec.extractLsb'_append_eq_of_le]
    simp [State.lastCcValid, State.lastCcVal]
  case result =>
    dsimp only [regValue]
    rw [ResultReg.word_eq, Code.bits_eq_codeNumber, Cause.bits_eq_causeNumber]
    simp (disch := decide) only [BitVec.getLsbD_append, BitVec.extractLsb'_append_eq_of_add_le,
      BitVec.extractLsb'_append_eq_of_le]
    simp

/-- The two register words of a value wider than 32 bits, joined, are that value (R38, R41, R244). -/
theorem hiWord_append_loWord {v : Nat} (hv : v < 2 ^ 64) : hiWord v ++ loWord v = BitVec.ofNat 64 v := by
  apply BitVec.eq_of_toNat_eq
  rw [hiWord, loWord, BitVec.toNat_append, BitVec.toNat_ofNat, BitVec.toNat_ofNat, BitVec.toNat_ofNat,
    ← Nat.shiftLeft_add_eq_or_of_lt (Nat.mod_lt v (by decide)), Nat.shiftLeft_eq, Nat.shiftRight_eq_div_pow]
  omega

/-- A 33-bit value in its HI:LO pair (R38, R41). -/
theorem zero_append_eq_hiWord_append_loWord (x : BitVec 33) : 0#31 ++ x = hiWord x.toNat ++ loWord x.toNat :=
  (ofNat_toNat_eq_zero_append 31 x).symm.trans (hiWord_append_loWord (by omega)).symm

theorem TshBank.fieldsWord_eq (t : TshBank) : t.fieldsWord =
    t.sync ++ t.cc ++ t.afc ++ t.tsc ++ BitVec.ofBool t.prio ++ BitVec.ofBool t.pusi ++ BitVec.ofBool t.tei
      ++ t.pid := by
  simp only [TshBank.fieldsWord, bit_eq_toNat, or_shiftLeft_eq_append, BitVec.append_assoc, BitVec.cast_eq]
  exact (BitVec.ofNat_toNat ..).trans (BitVec.setWidth_eq _)

theorem AfBank.fieldsWord_eq (f : AfBank) : f.fieldsWord =
    0#6 ++ BitVec.ofBool f.pcrValid ++ BitVec.ofBool f.valid ++ f.stuff ++ f.flags ++ f.len := by
  simp only [AfBank.fieldsWord, bit_eq_toNat, or_shiftLeft_eq_append, BitVec.append_assoc, BitVec.cast_eq]
  exact ofNat_toNat_eq_zero_append 6 _

theorem PesBank.idWord_eq (b : PesBank) : b.idWord = b.streamId ++ b.startCode := by
  rw [PesBank.idWord, or_shiftLeft_eq_append, BitVec.ofNat_toNat, BitVec.setWidth_eq]

theorem PesBank.fieldsWord_eq (b : PesBank) : b.fieldsWord =
    b.hdrDataLen ++ b.extFlags ++ b.ptsDtsFlags ++ b.packetLength := by
  simp only [PesBank.fieldsWord, or_shiftLeft_eq_append, BitVec.append_assoc, BitVec.cast_eq, BitVec.ofNat_toNat,
    BitVec.setWidth_eq]

theorem PesBank.statusWord_eq (b : PesBank) : b.statusWord =
    0#12 ++ BitVec.ofBool b.dtsValid ++ BitVec.ofBool b.ptsValid ++ BitVec.ofBool b.startCodeOk
      ++ BitVec.ofBool b.valid ++ 0#7 ++ b.hdrTotalLen := by
  simp only [PesBank.statusWord, bit_eq_toNat, or_shiftLeft_eq_append, or_shiftLeft_eq_append_zero_append 7,
    BitVec.append_assoc, BitVec.cast_eq]
  exact ofNat_toNat_eq_zero_append 12 _

/-- Settles O46: each register word as its concatenation, each HI:LO pair by its value. -/
theorem parsedFieldPositions : Obligations.ParsedFieldPositions := by
  intro s
  have hticks : 0#22 ++ s.af.pcrTicks = hiWord s.af.pcrTicks.toNat ++ loWord s.af.pcrTicks.toNat :=
    (ofNat_toNat_eq_zero_append 22 s.af.pcrTicks).symm.trans (hiWord_append_loWord (by omega)).symm
  exact ⟨rfl, s.tsh.fieldsWord_eq, s.af.fieldsWord_eq, zero_append_eq_hiWord_append_loWord s.af.pcrBase, hticks,
    s.pes.idWord_eq, s.pes.fieldsWord_eq, s.pes.statusWord_eq, zero_append_eq_hiWord_append_loWord s.pes.pts,
    zero_append_eq_hiWord_append_loWord s.pes.dts⟩

/-- Every register of the map reads 0 after a reset; ASM_CAP stands in none of them (R45). -/
theorem regValue_resetWith (r : Reg) (cap : Nat) : regValue r (State.resetWith cap) = 0 := by
  have hcap : regValue r (State.resetWith cap) = regValue r (State.resetWith 0) := by cases r <;> rfl
  rw [hcap]
  cases r <;> decide

/-- Settles O11: the fields of the reset state, and every register of the map. -/
theorem resetValuesAreTheCollectedOnes : Obligations.ResetValuesAreTheCollectedOnes :=
  ⟨fun _ => rfl, rfl, rfl, rfl, rfl, rfl, rfl, rfl, fun r => regValue_resetWith r _, rfl⟩

end Sys2Proof.Machine
end

section
/-! PROOFS. The host window: which offset is which register, the word an RD32 of PKT returns, what a read changes,
and the transaction a step runs. -/

namespace Sys2Proof.Machine

/-! ### The register map -/

/-- The offset at which R61 places a register. -/
def regOffset : Reg → Nat
  | .cmd => 0x100
  | .config => 0x104
  | .result => 0x108
  | .status => 0x10C
  | .asmLen => 0x110
  | .sinkLen => 0x114
  | .tshWord => 0x120
  | .tshFields => 0x124
  | .afFields => 0x130
  | .pcrBaseLo => 0x134
  | .pcrBaseHi => 0x138
  | .pcrTicksLo => 0x13C
  | .pcrTicksHi => 0x140
  | .pesId => 0x150
  | .pesFields => 0x154
  | .pesStatus => 0x158
  | .ptsLo => 0x15C
  | .ptsHi => 0x160
  | .dtsLo => 0x164
  | .dtsHi => 0x168

theorem regAt_regOffset (r : Reg) : regAt (regOffset r) = some r := by cases r <;> rfl

/-- The map and the offsets are inverse to each other, so a register has no second address (R61). -/
theorem regAt_eq_some_iff {a : Nat} {r : Reg} : regAt a = some r ↔ a = regOffset r := by
  constructor
  · intro h
    unfold regAt at h
    split at h <;> cases h <;> rfl
  · rintro rfl
    exact regAt_regOffset r

/-- Settles O44: an address that names a register is that register's offset. -/
theorem registerMapIsOneToOne : Obligations.RegisterMapIsOneToOne := by
  refine ⟨by decide, fun a b r ha hb => ?_, fun a r => regAt_bounds⟩
  rw [regAt_eq_some_iff.mp ha, regAt_eq_some_iff.mp hb]

/-! ### Words of PKT -/

/-- Lane k of a word is the k-th of the four bytes it is made of (R63). -/
theorem wordLE_lane (b0 b1 b2 b3 : Byte) {k : Nat} (hk : k < 4) :
    [b0, b1, b2, b3][k]? = some ((wordLE b0 b1 b2 b3).extractLsb' (8 * k) 8) := by
  match k with
  | 0 | 1 | 2 | 3 =>
    simp (disch := decide) only [wordLE, BitVec.extractLsb'_append_eq_of_add_le, BitVec.extractLsb'_append_eq_of_le]
    simp

/-- Four bytes that hold values are read as four bytes. -/
theorem Memory.readBytes_four {m : Memory} {a : Nat} (h : ∀ k, k < 4 → m.read (a + k) ≠ none) :
    ∃ b0 b1 b2 b3, m.readBytes a 4 = some [b0, b1, b2, b3] := by
  have hsome : m.readBytes a 4 ≠ none := fun hnone =>
    have ⟨k, hk, hread⟩ := (Memory.readBytes_eq_none m 4 a).mp hnone
    h k hk hread
  obtain ⟨bs, hbs⟩ := Option.ne_none_iff_exists'.mp hsome
  match bs, ((Memory.readBytes_eq_some m 4 a bs).mp hbs).1 with
  | [b0, b1, b2, b3], _ => exact ⟨b0, b1, b2, b3, hbs⟩

/-- An RD32 of a PKT word whose four bytes hold values returns the word that has them in its lanes (R63, R240). -/
theorem execRd32_packet {a : Addr} {s : State} (h4 : a.toNat % 4 = 0) (ha : a.toNat ≤ 187)
    (h : ∀ k, k < 4 → s.pkt.read (a.toNat + k) ≠ none) :
    ∃ w, execRd32 a s = .next (returnRead (.word w) s)
      ∧ ∀ k, k < 4 → s.pkt.read (a.toNat + k) = some (w.extractLsb' (8 * k) 8) := by
  obtain ⟨b0, b1, b2, b3, hbs⟩ := Memory.readBytes_four h
  refine ⟨wordLE b0 b1 b2 b3, ?_, fun k hk => ?_⟩
  · rw [execRd32, if_pos ((aligned_iff a).mpr h4), if_pos ((inPkt_iff a).mpr ha), hbs]
  · rw [((Memory.readBytes_eq_some _ _ _ _).mp hbs).2 k hk, wordLE_lane b0 b1 b2 b3 hk]

theorem execWr8_packet {a : Addr} (ha : a.toNat ≤ 187) (d : Byte) (s : State) :
    execWr8 a d s = .next (writeByte a.toNat d s) := by rw [execWr8, if_pos ((inPkt_iff a).mpr ha)]

/-- A write leaves every byte that holds a value holding one. -/
theorem Memory.read_write_ne_none {m : Memory} {c : Nat} (a : Nat) (b : Byte) (h : m.read c ≠ none) :
    (m.write a b).read c ≠ none := by
  rw [Memory.read_write]
  split
  · exact Option.some_ne_none b
  · exact h

/-- The offset of the PKT word with byte `a` is an address of the window. -/
theorem wordOffset_toNat {a : Addr} (ha : a.toNat ≤ 187) :
    (BitVec.ofNat 12 (a.toNat / 4 * 4) : Addr).toNat = a.toNat / 4 * 4 := by
  rw [BitVec.toNat_ofNat, Nat.mod_eq_of_lt (by omega)]

/-- Settles O39: the RD32 returns what stands in PKT after the write, which in lane a mod 4 is byte a. -/
theorem byteWriteReadsBackInItsLane : Obligations.ByteWriteReadsBackInItsLane := by
  intro s a d ha hword
  have hoff := wordOffset_toNat ha
  obtain ⟨w, hread, hlanes⟩ := execRd32_packet (a := BitVec.ofNat 12 (a.toNat / 4 * 4))
    (s := writeByte a.toNat d s) (by omega) (by omega)
    (fun k hk => by rw [hoff]; exact Memory.read_write_ne_none _ d (hword k hk))
  refine ⟨writeByte a.toNat d s, _, w, execWr8_packet ha d s, hread, rfl, ?_⟩
  have hlane := hlanes (a.toNat % 4) (Nat.mod_lt _ (by decide))
  rw [hoff, Nat.div_add_mod', writeByte_pkt, Memory.read_write_same] at hlane
  exact (Option.some.inj hlane).symm

/-! ### What a read changes -/

/-- Settles O51: a read returns its value, after raising BusError only at an address it may not access. -/
theorem readsHaveNoSideEffect : Obligations.ReadsHaveNoSideEffect := by
  intro s t a
  refine ⟨fun h => ?rd8, fun h => ?rd32⟩
  case rd8 =>
    rcases execRd8_next h with ⟨_, b, _, rfl⟩ | ⟨ha, rfl⟩
    · exact ⟨⟨b, rfl⟩, fun hne => absurd rfl hne⟩
    · exact ⟨⟨0, rfl⟩, fun _ => ha⟩
  case rd32 =>
    rcases execRd32_next h with ⟨_, w, rfl⟩ | ⟨ha, rfl⟩
    · exact ⟨⟨w, rfl⟩, fun hne => absurd rfl hne⟩
    · exact ⟨⟨0, rfl⟩, fun _ => ha⟩

/-! ### The transaction a step runs -/

theorem step_of_line {s : State} {l : BusLine} {rest : List BusLine} {i : Instr} (hp : s.hostProgram = l :: rest)
    (hl : decodeLine l = .ok i) : step s = exec i (popped rest s) := by
  simp only [step, hp, hl, popped]

theorem step_of_no_line {s : State} (hp : s.hostProgram = []) : step s = .next s := by simp only [step, hp]

/-- Settles O7: a listing line is decoded as a BUS word (R90). -/
theorem stepRunsTheDecodedTransaction : Obligations.StepRunsTheDecodedTransaction :=
  ⟨fun _ _ _ _ hp hd => step_of_line hp hd, fun _ hp => step_of_no_line hp⟩

end Sys2Proof.Machine
end

section
/-! PROOFS. The encodings: the encoder and the decoder are inverse to each other, the classes and the commands by their
bits, and the listing lines a step refuses. -/

namespace Sys2Proof.Machine

/-! ### Header words -/

/-- The fields of a header word are the operands it was made of (R81). -/
theorem headerOf_headerWord (h : TsHeader) (b : Bool) : headerOf (headerWord h b) = h := by
  unfold headerOf headerWord
  simp (disch := decide) only [BitVec.getLsbD_append, BitVec.extractLsb'_append_eq_of_add_le,
    BitVec.extractLsb'_append_eq_of_le]
  simp

/-- A header word is made of its fields and its PUSI: no bit of it is dropped (R81). -/
theorem headerWord_headerOf (w : Word) : headerWord (headerOf w) (w.getLsbD 22) = w := by
  refine BitVec.eq_of_getLsbD_eq fun i hi => ?_
  simp only [headerWord, headerOf, BitVec.getLsbD_append, BitVec.getLsbD_extractLsb', BitVec.getLsbD_ofBool]
  interval_cases i <;> simp

/-! ### Command words -/

/-- The words that decode to a command (R88). -/
theorem decode_cmd_ok {d : Word} {i : Instr} (h : decode (.cmd d) = .ok i) :
    (d = 0 ∧ i = .nop) ∨ (d = 1 ∧ i = .init) ∨ (d = 2 ∧ i = .absorb) := by
  rcases commandOf_cases d with ⟨rfl, _⟩ | ⟨rfl, _⟩ | ⟨rfl, _⟩ | ⟨h0, h1, h2, _⟩
  · cases h; exact .inl ⟨rfl, rfl⟩
  · cases h; exact .inr (.inl ⟨rfl, rfl⟩)
  · cases h; exact .inr (.inr ⟨rfl, rfl⟩)
  · rw [decode_cmd_reserved h0 h1 h2] at h
    cases h

/-! ### Bus lines -/

/-- The bits of a header H above its address: W, S and the two reserved ones (R90). -/
theorem header_kind_bits (H : BitVec 16) :
    H.extractLsb' 12 4 = BitVec.ofBool (H.getLsbD 15) ++ BitVec.ofBool (H.getLsbD 14) ++ H.extractLsb' 12 2 := by
  refine BitVec.eq_of_getLsbD_eq fun i hi => ?_
  simp only [BitVec.getLsbD_append, BitVec.getLsbD_extractLsb', BitVec.getLsbD_ofBool]
  interval_cases i <;> simp

/-- A header is its kind's bits over its address (R90). -/
theorem busHeader_of_kind_bits {kind H : BitVec 16} (hlow : kind.extractLsb' 0 12 = 0#12)
    (hkind : kind.extractLsb' 12 4 = H.extractLsb' 12 4) : busHeader kind (H.extractLsb' 0 12) = H := by
  refine BitVec.eq_of_getLsbD_eq fun i hi => ?_
  rcases Nat.lt_or_ge i 12 with h | h
  · have := congrArg (fun v => BitVec.getLsbD v i) (busHeader_address kind (H.extractLsb' 0 12) hlow)
    simpa [BitVec.getLsbD_extractLsb', h] using this
  · have := congrArg (fun v => BitVec.getLsbD v (i - 12)) hkind
    have hi4 : i - 12 < 4 := by omega
    rw [busHeader_bit kind _ h]
    simpa [BitVec.getLsbD_extractLsb', hi4, Nat.add_sub_cancel' h] using this

/-- A header whose reserved bits are 0 is the encoder's for the kind with its bits W and S (R90). -/
theorem busHeader_of_bits {kind H : BitVec 16} (hlow : kind.extractLsb' 0 12 = 0#12)
    (hres : kind.extractLsb' 12 2 = 0#2) (h0 : H.extractLsb' 12 2 = 0#2) (h15 : H.getLsbD 15 = kind.getLsbD 15)
    (h14 : H.getLsbD 14 = kind.getLsbD 14) : busHeader kind (H.extractLsb' 0 12) = H :=
  busHeader_of_kind_bits hlow (by rw [header_kind_bits, header_kind_bits H, hres, h0, h15, h14])

/-- The number of a word by its low byte and its bits [31:8]. -/
theorem toNat_eq_lowByte_add (d : Word) :
    d.toNat = (d.extractLsb' 0 8).toNat + 256 * (d.extractLsb' 8 24).toNat := by
  have := d.isLt
  simp only [BitVec.extractLsb'_toNat, Nat.shiftRight_eq_div_pow]
  omega

/-- A data word with bits [31:8] at 0 is its low byte widened (R90). -/
theorem setWidth_lowByte {d : Word} (h : d.extractLsb' 8 24 = 0#24) : (d.extractLsb' 0 8).setWidth 32 = d := by
  have hsplit := toNat_eq_lowByte_add d
  rw [h] at hsplit
  bv_omega

/-- The encoder's line of a transaction decodes to that transaction (R90). -/
theorem decodeLine_of_encode {i : Instr} {l : BusLine} (h : encode i = .bus l) : decodeLine l = .ok i := by
  cases i with
  | nop | init | absorb | start | continuation | completion => cases h
  | rd8 a | rd32 a | wr32 a d =>
    cases h
    simp [decodeLine, busHeader_kind, busHeader_bit, busHeader_address, -BitVec.getLsbD_eq_getElem]
  | wr8 a d =>
    cases h
    have hhigh : (d.setWidth 32).extractLsb' 8 24 = 0#24 := by
      refine BitVec.eq_of_getLsbD_eq fun k hk => ?_
      simp
    have hlow : (d.setWidth 32).extractLsb' 0 8 = d := by
      refine BitVec.eq_of_getLsbD_eq fun k hk => ?_
      simpa [hk] using fun _ => Nat.lt_trans hk (by decide)
    simp [decodeLine, busHeader_kind, busHeader_bit, busHeader_address, hhigh, hlow,
      -BitVec.getLsbD_eq_getElem]

/-- A line that decodes is the encoder's line of its transaction (R90; log entry 6 for its data word). -/
theorem encode_of_decodeLine {l : BusLine} {i : Instr} (h : decodeLine l = .ok i) :
    i.wf = true ∧ encode i = .bus l := by
  obtain ⟨H, data⟩ := l
  obtain ⟨h0, ⟨h15, h14, rfl, rfl⟩ | ⟨h15, h14, rfl, rfl⟩ | ⟨h15, h14, d, rfl, hd, rfl⟩ | ⟨h15, h14, d, rfl, rfl⟩⟩ :=
    decodeLine_ok h
  · exact ⟨rfl, congrArg (fun H => Encoded.bus ⟨H, none⟩) (busHeader_of_bits rfl rfl h0 h15 h14)⟩
  · exact ⟨rfl, congrArg (fun H => Encoded.bus ⟨H, none⟩) (busHeader_of_bits rfl rfl h0 h15 h14)⟩
  · refine ⟨rfl, ?_⟩
    rw [encode, setWidth_lowByte hd]
    exact congrArg (fun H => Encoded.bus ⟨H, some d⟩) (busHeader_of_bits rfl rfl h0 h15 h14)
  · exact ⟨rfl, congrArg (fun H => Encoded.bus ⟨H, some d⟩) (busHeader_of_bits rfl rfl h0 h15 h14)⟩

/-! ### Decoder and encoder are inverse -/

/-- Settles O1, format by format: a header word by its fields and the two bits of its class. -/
theorem decodeOfEncodeIsTheInstruction : Obligations.DecodeOfEncodeIsTheInstruction := by
  intro i hwf
  cases i with
  | nop | init | absorb => rfl
  | start h =>
    rw [encode, decode_tsh, Laws.TableRow.headerWord_pusi, headerOf_headerWord]
    rfl
  | continuation h | completion h =>
    simp only [Instr.wf, Bool.not_eq_true'] at hwf
    rw [encode, decode_tsh, Laws.TableRow.headerWord_pusi, Laws.TableRow.headerWord_hasAf, hwf, headerOf_headerWord]
    rfl
  | rd8 | rd32 | wr8 | wr32 => exact decodeLine_of_encode rfl

/-- Settles O2: a command word is one of three, a header word is its fields with the PUSI of its class, and a line is
its kind over its address with its data word. -/
theorem encodeOfDecodeIsTheWord : Obligations.EncodeOfDecodeIsTheWord := by
  intro e i h
  cases e with
  | cmd d =>
    rcases decode_cmd_ok h with ⟨rfl, rfl⟩ | ⟨rfl, rfl⟩ | ⟨rfl, rfl⟩ <;> exact ⟨rfl, rfl⟩
  | tsh w =>
    have hword {b : Bool} (hb : w.getLsbD 22 = b) : Encoded.tsh (headerWord (headerOf w) b) = .tsh w := by
      rw [← hb, headerWord_headerOf]
    rw [decode_tsh] at h
    split at h
    next hpusi => cases h; exact ⟨rfl, hword hpusi⟩
    next hpusi =>
      rw [Bool.not_eq_true] at hpusi
      split at h
      next haf => cases h; exact ⟨(headerOf_hasAf w).trans haf, hword hpusi⟩
      next haf => cases h; exact ⟨by simpa [Instr.wf] using haf, hword hpusi⟩
  | bus l => exact encode_of_decodeLine h

/-! ### Classes and commands by their bits -/

/-- Settles O4: a class and its mask say the same of W[22] and W[5]. -/
theorem packetClassesByMaskAndMatch : Obligations.PacketClassesByMaskAndMatch := by
  intro w
  rw [decode_tsh, startMask_iff, continuationMask_iff, completionMask_iff, headerOf_hasAf]
  cases w.getLsbD 22 <;> cases w.getLsbD 5 <;> simp

/-- Settles O5: the words 0, 1 and 2 are those whose low byte is below 3 and whose other bits are 0. -/
theorem commandWordsByOpcodeAndReservedBits : Obligations.CommandWordsByOpcodeAndReservedBits := by
  refine ⟨rfl, rfl, rfl, fun d => ?_⟩
  rcases commandOf_cases d with ⟨rfl, _⟩ | ⟨rfl, _⟩ | ⟨rfl, _⟩ | ⟨h0, h1, h2, _⟩
  · decide
  · decide
  · decide
  · have hbits : 3 ≤ (d.extractLsb' 0 8).toNat ∨ d.extractLsb' 8 24 ≠ 0#24 := by
      by_contra! hlow
      have hsplit := toNat_eq_lowByte_add d
      rw [hlow.2] at hsplit
      bv_omega
    exact iff_of_true (decode_cmd_reserved h0 h1 h2) hbits

/-- Settles O3: the decoder is run on each of the twelve words. -/
theorem writtenOutWordsDecode : Obligations.WrittenOutWordsDecode := by
  unfold Obligations.WrittenOutWordsDecode
  decide

/-! ### Refused lines -/

theorem step_refused {s : State} {l : BusLine} {rest : List BusLine} {e : DecodeError} (hp : s.hostProgram = l :: rest)
    (hl : decodeLine l = .error e) : step s = .refused (.illFormedListing e) := by simp only [step, hp, hl]

/-- The kind bits of a WR8 header: W = 1, S = 0 and the reserved bits 0 (R90). -/
theorem header_wr8_bits {H : BitVec 16} (h : H.extractLsb' 12 4 = 0x8#4) :
    H.getLsbD 15 = true ∧ H.getLsbD 14 = false ∧ H.extractLsb' 12 2 = 0#2 := by
  have key : ∀ (w s : Bool) (r : BitVec 2),
      BitVec.ofBool w ++ BitVec.ofBool s ++ r = 0x8#4 → w = true ∧ s = false ∧ r = 0#2 := by decide
  exact key _ _ _ ((header_kind_bits H).symm.trans h)

/-- Settles O6, by the order of the decoder's checks. -/
theorem illFormedListingLinesAreRefused : Obligations.IllFormedListingLinesAreRefused := by
  intro s l rest hp
  refine ⟨fun hres => step_refused hp ?_, fun d hkind hdata hhigh => step_refused hp ?_⟩
  · simp [decodeLine, hres]
  · obtain ⟨h15, h14, h0⟩ := header_wr8_bits hkind
    simp [decodeLine, h0, h15, h14, hdata, hhigh, -BitVec.getLsbD_eq_getElem]

end Sys2Proof.Machine
end

section
/-! PROOFS. The timestamp a START takes from the bytes that encode it. -/

namespace Sys2Proof.Machine

/-- The value bits of five bytes that encode a 33-bit value, joined, are that value (R86). -/
theorem timestamp_of_bytes {p : Bytes} {k : Nat} {v : BitVec 33} {m0 : BitVec 4} {m1 m2 m4 : BitVec 1}
    (h0 : Spec.byte p k = m0 ++ v.extractLsb' 30 3 ++ m1) (h1 : Spec.byte p (k + 1) = v.extractLsb' 22 8)
    (h2 : Spec.byte p (k + 2) = v.extractLsb' 15 7 ++ m2) (h3 : Spec.byte p (k + 3) = v.extractLsb' 7 8)
    (h4 : Spec.byte p (k + 4) = v.extractLsb' 0 7 ++ m4) : Spec.timestamp p k = v := by
  rw [Spec.timestamp, h0, h1, h2, h3, h4]
  refine BitVec.eq_of_getLsbD_eq fun i hi => ?_
  simp only [BitVec.getLsbD_append, BitVec.getLsbD_extractLsb']
  interval_cases i <;> simp

/-- The timestamp the machine's shifts compute is the spec's joined bits (R86, R162). -/
theorem ofNat_ts5 (p : Bytes) (k : Nat) : BitVec.ofNat 33 (ts5 p k) = Spec.timestamp p k := ts5_eq p k

/-- The PES bank after a START, whatever row it takes (R151, R185). -/
theorem startStep_pes (h : TsHeader) (p : Bytes) (s : State) : (startStep h p s).pes = startPes h p s := by
  rcases startStep_outcome h p s with ⟨c, _, _, e⟩ | ⟨_, e⟩ <;> rw [e] <;> simp

/-- A header whose timestamps fit is parsed completely, even where its start code is not 1 (R161, R167, R168). -/
theorem pesParse_bank_of_fits {p : Bytes} {off : Nat} (hlen : off + Spec.headerLength p off ≤ 188)
    (hts : off + Spec.timestampReach p off ≤ 188) : (pesParse p off).bank = pesParsedBank p off := by
  have hlen' : Spec.headerLength p off = hdrTotalLenOf p off := rfl
  have hge : 9 ≤ hdrTotalLenOf p off := Nat.le_add_right 9 _
  rw [timestampReach_eq] at hts
  rcases pesParse_cases p off with ⟨_, _⟩ | ⟨_, _, _⟩ | ⟨_, _, _, _⟩ | ⟨_, _, _, e⟩
  · omega
  · omega
  · omega
  · rw [e]

/-- Settles O22: the header is parsed at 4 with its PTS at 13, and the PTS is the joined value bits. -/
theorem timestampIgnoresMarkerBits : Obligations.TimestampIgnoresMarkerBits := by
  intro s p h v m0 m1 m2 m4 hp haf hflags hlen h0 h1 h2 h3 h4
  have hbank : (startStep h p s).pes = pesParsedBank p 4 := by
    rw [startStep_pes, startPes, if_pos (afOk_of_noAf haf), payloadAt_of_noAf haf]
    refine pesParse_bank_of_fits (by omega) ?_
    simp [Spec.timestampReach, hflags]
  have hf : ptsDtsFlagsOf p 4 = 2 :=
    (ptsDtsFlags_eq_iff p 4 2 (by decide)).mp ((ptsDtsFlags_eq_ofNat p 4).symm.trans hflags)
  have hpts : BitVec.ofNat 33 (ts5 p 13) = v := (ofNat_ts5 p 13).trans (timestamp_of_bytes h0 h1 h2 h3 h4)
  refine ⟨startStep h p s, onPacket_next hp, ?_⟩
  rw [hbank]
  simp [pesParsedBank, pesFixedBank, PesBank.zero, hf, hpts]

end Sys2Proof.Machine
end

section
/-! PROOFS. The word a probe places is what the next step runs. -/

namespace Sys2Proof.Machine

theorem exec_wr32_command (d : Word) (s : State) : exec (.wr32 0x100#12 d) s = runCommand d s := rfl

/-- A command word runs as the command it decodes to (R220). -/
theorem runCommand_of_decode {d : Word} {i : Instr} (h : decode (.cmd d) = .ok i) (s : State) :
    runCommand d s = exec i s := by
  rcases decode_cmd_ok h with ⟨rfl, rfl⟩ | ⟨rfl, rfl⟩ | ⟨rfl, rfl⟩ <;> rfl

/-- A table word that decodes is placed as the encoding of its instruction (log entry 3). -/
theorem withFetchWord_of_decode {nbits w : Nat} {i : Instr} (h : decodeTableWord nbits w = some i) (s : State) :
    decode (encode i) = .ok i ∧ s.withFetchWord nbits w = s.withEncoded (encode i) := by
  unfold decodeTableWord at h
  cases he : tableEncoded nbits w with
  | none => simp [he] at h
  | some e =>
    cases hd : decode e with
    | error _ => simp [he, hd] at h
    | ok j =>
      obtain rfl : j = i := by simpa [he, hd] using h
      obtain ⟨_, henc⟩ := encodeOfDecodeIsTheWord e j hd
      rw [henc]
      exact ⟨hd, by simp only [State.withFetchWord, he]⟩

/-- A line placed in front of the host's program is what the next step runs. -/
theorem step_pushLine {l : BusLine} {i : Instr} (hl : decodeLine l = .ok i) (s : State) :
    step (s.pushLine l) = exec i s := step_of_line rfl hl

theorem step_pushLine_command (d : Word) (s : State) : step (s.pushLine (commandLine d)) = runCommand d s :=
  (step_pushLine (decodeLine_command d) s).trans (exec_wr32_command d s)

/-- The packet a probe places for a header word: the word's bytes, then 0 (log entry 3). -/
def probePacket (w : Word) : Bytes := bytesBE w ++ List.replicate 184 0

/-- The header word of a packet is the word whose bytes it begins with (R81). -/
theorem tshWord_bytesBE_append (w : Word) (r : Bytes) : tshWord (bytesBE w ++ r) = w := by
  rw [tshWord_eq]
  refine BitVec.eq_of_getLsbD_eq fun i hi => ?_
  simp only [bytesBE, BitVec.getLsbD_append]
  interval_cases i <;> simp

theorem tshWord_probePacket (w : Word) : tshWord (probePacket w) = w := tshWord_bytesBE_append w _

/-- ABSORB of a packet is its front half, then the class its header word decodes to (R180, R181). -/
theorem execAbsorb_of_decode {s : State} {p : Bytes} {i : Instr} (hp : snapshot s = some p)
    (h : decode (.tsh (tshWord p)) = .ok i) : exec .absorb s = exec i (absorbFront p s) := by
  have hfront : snapshot (absorbFront p s) = some p := (snapshot_congr rfl).trans hp
  rw [exec_absorb, onPacket_next hp, absorbStep, absorbDispatch]
  unfold decode at h
  cases hc : packetClass (tshWord p) <;> simp only [hc] at h ⊢ <;> cases h <;> exact (onPacket_next hfront).symm

/-- Settles O10: what is placed is the encoding of the instruction, format by format. -/
theorem placedWordIsTheNextToRun : Obligations.PlacedWordIsTheNextToRun := by
  intro s nbits w i h
  obtain ⟨hdec, hplace⟩ := withFetchWord_of_decode h s
  rw [hplace]
  refine ⟨fun l he => ?bus, fun d he => ?cmd, fun v he => ?tsh⟩ <;> rw [he] at hdec ⊢
  case bus => exact step_pushLine hdec s
  case cmd => exact (step_pushLine_command d s).trans (runCommand_of_decode hdec s)
  case tsh =>
    have hsnap : snapshot { s with pkt := Memory.ofBytes 0 (probePacket v) } = some (probePacket v) :=
      Memory.readBytes_ofBytes (probePacket v)
    rw [← tshWord_probePacket v] at hdec
    exact ⟨probePacket v, rfl, rfl, (step_pushLine_command 2 _).trans (execAbsorb_of_decode hsnap hdec)⟩

end Sys2Proof.Machine
end

section
/-! PROOFS. The runs of the host's pseudo-instructions SETCFG, LDPKT and FEED. -/

namespace Sys2Proof.Machine

/-! ### Runs of a loaded program -/

theorem runsTo_trans {j k : Nat} {s m t : State} (h : runsTo j s m) (h' : runsTo k m t) : runsTo (j + k) s t := by
  induction j generalizing s with
  | zero => rw [Nat.zero_add, show s = m from h]; exact h'
  | succ j ih =>
    obtain ⟨u, hu, hrest⟩ := h
    rw [Nat.succ_add]
    exact ⟨u, hu, ih hrest⟩

theorem runsTo_one {s t : State} (h : step s = .next t) : runsTo 1 s t := ⟨t, h, rfl⟩

theorem load_nil (s : State) : s.load [] = s := by simp [State.load]

/-- The first transaction of a program given to a host with nothing left to issue is what the step runs. -/
theorem step_load_cons {s : State} {i : Instr} {l : BusLine} (hs : s.hostProgram = []) (hi : encode i = .bus l)
    (prog : List Instr) : step (s.load (i :: prog)) = exec i (s.load prog) := by
  have hline : lineOf i = some l := by rw [lineOf, hi]
  have hp : (s.load (i :: prog)).hostProgram = l :: prog.filterMap lineOf := by
    simp [State.load, hs, hline]
  rw [step_of_line hp (decodeLine_of_encode hi)]
  simp [popped, State.load, hs]

/-! ### SETCFG and CMD_INIT -/

/-- CONFIG as its fields joined, bit 31 first (R23). -/
theorem ConfigReg.word_eq (c : ConfigReg) : c.word = 0#15 ++ (BitVec.ofBool c.raw ++ (0#3 ++ c.pid)) := by
  simp only [ConfigReg.word, bit_eq_toNat, or_shiftLeft_eq_append_zero_append 3]
  exact ofNat_toNat_eq_zero_append 15 _

/-- A write of the word CONFIG reads as stores that CONFIG (R23, R245). -/
theorem configOf_word (c : ConfigReg) : configOf c.word = c := by
  rw [ConfigReg.word_eq, configOf]
  simp (disch := decide) only [BitVec.getLsbD_append, BitVec.extractLsb'_append_eq_of_add_le]
  simp

theorem exec_wr32_config (d : Word) (s : State) : exec (.wr32 0x104#12 d) s = .next (setConfig (configOf d) s) := rfl

/-- SETCFG writes the word CONFIG reads as afterwards (R96). -/
theorem setcfg_eq (pid : BitVec 13) (raw : Bool) :
    setcfg pid.toNat (if raw then 1 else 0) = .wr32 0x104#12 (ConfigReg.word ⟨pid, raw⟩) := by
  rw [setcfg, Nat.or_comm]
  rfl

/-- Settles O54: the first step stores CONFIG, the second is INIT. -/
theorem configureThenInitTracksThePid : Obligations.ConfigureThenInitTracksThePid := by
  intro s pid raw hs
  rw [setcfg_eq]
  have hconfig : step (s.load [.wr32 0x104#12 (ConfigReg.word ⟨pid, raw⟩), cmdWrite 1]) =
      .next ((setConfig ⟨pid, raw⟩ s).load [cmdWrite 1]) := by
    rw [step_load_cons hs rfl, exec_wr32_config, configOf_word]
    rfl
  have hinit : step ((setConfig ⟨pid, raw⟩ s).load [cmdWrite 1]) = .next (initialise (setConfig ⟨pid, raw⟩ s)) := by
    rw [step_load_cons (s := setConfig ⟨pid, raw⟩ s) hs rfl, load_nil]
    rfl
  exact ⟨_, runsTo_trans (runsTo_one hconfig) (runsTo_one hinit), rfl, rfl, rfl, rfl, rfl, rfl, rfl, rfl⟩

/-! ### LDPKT and FEED -/

/-- The writes of the first n words of a packet (R96). -/
def wordWrites (p : Bytes) (n : Nat) : List Instr :=
  (List.range n).map fun j => .wr32 (BitVec.ofNat 12 (4 * j)) (packetWord p j)

theorem ldpkt_eq (p : Bytes) : ldpkt p = wordWrites p 47 := rfl

theorem wordWrites_succ (p : Bytes) (n : Nat) :
    wordWrites p (n + 1) = wordWrites p n ++ [.wr32 (BitVec.ofNat 12 (4 * n)) (packetWord p n)] := by
  simp [wordWrites, List.range_succ]

/-- The lanes of a word made of four bytes are those bytes (R63). -/
theorem bytesLE_wordLE (b0 b1 b2 b3 : Byte) : bytesLE (wordLE b0 b1 b2 b3) = [b0, b1, b2, b3] := by
  simp (disch := decide) only [bytesLE, wordLE, BitVec.extractLsb'_append_eq_of_add_le,
    BitVec.extractLsb'_append_eq_of_le]
  simp

/-- The lanes of the j-th word of a packet are its bytes from 4j on (R63, R96). -/
theorem bytesLE_packetWord {p : Bytes} {j k : Nat} (hp : 4 * j + 4 ≤ p.length) (hk : k < 4) :
    (bytesLE (packetWord p j))[k]? = p[4 * j + k]? := by
  have hbyte : p[4 * j + k]? = some (p.getD (4 * j + k) 0) := by
    rw [List.getD_eq_getElem _ _ (by omega), List.getElem?_eq_getElem]
  rw [packetWord, bytesLE_wordLE, hbyte]
  match k with
  | 0 | 1 | 2 | 3 => rfl

/-- A canonical PKT has no byte past 187. -/
theorem Memory.read_of_ge {m : Memory} {lo c : Nat} (h : Memory.wfFrom lo m = true) (hc : Config.pktSize ≤ c) :
    m.read c = none := by
  induction m generalizing lo with
  | nil => rfl
  | cons e r ih =>
    obtain ⟨k, v⟩ := e
    simp only [Memory.wfFrom, Bool.and_eq_true, decide_eq_true_eq] at h
    obtain ⟨⟨_, hk⟩, hr⟩ := h
    rw [Memory.read, if_neg (by omega), ih hr]

theorem execWr32_packet {a : Addr} (h4 : a.toNat % 4 = 0) (ha : a.toNat ≤ 187) (d : Word) (s : State) :
    execWr32 a d s = .next (writeWord a.toNat d s) := by
  rw [execWr32, if_pos ((aligned_iff a).mpr h4), if_pos ((inPkt_iff a).mpr ha)]

/-- A packet word written to PKT, as a step (R242). -/
theorem step_load_packetWrite {s : State} (hs : s.hostProgram = []) {a : Nat} (ha : a ≤ 184) (h4 : a % 4 = 0) (d : Word)
    (prog : List Instr) :
    step (s.load (.wr32 (BitVec.ofNat 12 a) d :: prog)) = .next ((writeWord a d s).load prog) := by
  have haddr : (BitVec.ofNat 12 a).toNat = a := by rw [BitVec.toNat_ofNat, Nat.mod_eq_of_lt (by omega)]
  have hwrite := execWr32_packet (a := BitVec.ofNat 12 a) (by omega) (by omega) d (s.load prog)
  rw [haddr] at hwrite
  exact (step_load_cons hs rfl prog).trans hwrite

/-- The first n words of a packet are loaded into `m`: the canonical buffer that holds their bytes and, from there
on, what `m₀` holds. -/
structure Loaded (p : Bytes) (m₀ : Memory) (n : Nat) (m : Memory) : Prop where
  wf : m.wf = true
  read (c : Nat) : m.read c = if c < 4 * n then p[c]? else m₀.read c

theorem Loaded.zero (p : Bytes) {m₀ : Memory} (h : m₀.wf = true) : Loaded p m₀ 0 m₀ := ⟨h, fun c => by simp⟩

theorem Loaded.succ {p : Bytes} {m₀ m : Memory} {n : Nat} (h : Loaded p m₀ n m) (hp : p.length = 188) (hn : n < 47) :
    Loaded p m₀ (n + 1) (m.writeBytes (4 * n) (bytesLE (packetWord p n))) where
  wf := Memory.wf_writeBytes _ m h.wf (by rw [bytesLE_length, Config.pktSize]; omega)
  read c := by
    rw [Memory.read_writeBytes, bytesLE_length, h.read]
    by_cases hin : 4 * n ≤ c ∧ c < 4 * n + 4
    · rw [if_pos hin, if_pos (by omega), bytesLE_packetWord (by omega) (by omega), Nat.add_sub_cancel' hin.1]
    · rw [if_neg hin]
      by_cases hlt : c < 4 * n
      · rw [if_pos hlt, if_pos (by omega)]
      · rw [if_neg hlt, if_neg (by omega)]

/-- With all 47 words loaded PKT is exactly the packet, whatever it held. -/
theorem Loaded.all {p : Bytes} {m₀ m : Memory} (h : Loaded p m₀ 47 m) (hp : p.length = 188) (h₀ : m₀.wf = true) :
    m = Memory.ofBytes 0 p := by
  refine Memory.ext_of_wf m _ h.wf (Memory.wf_ofBytes p (le_of_eq hp)) fun c => ?_
  rw [h.read, Memory.read_ofBytes, if_pos (Nat.zero_le c), Nat.sub_zero]
  split
  next => rfl
  next hc => rw [Memory.read_of_ge h₀ (by rw [Config.pktSize]; omega), List.getElem?_eq_none (by omega)]

/-- The first n word writes of a packet run to a buffer with these words loaded, before whatever follows (R96). -/
theorem runsTo_wordWrites {s : State} {p : Bytes} (hs : s.hostProgram = []) (hpkt : s.pkt.wf = true)
    (hp : p.length = 188) {n : Nat} (hn : n ≤ 47) (prog : List Instr) :
    ∃ m, Loaded p s.pkt n m ∧ runsTo n (s.load (wordWrites p n ++ prog)) (State.load prog { s with pkt := m }) := by
  induction n generalizing prog with
  | zero => exact ⟨s.pkt, Loaded.zero p hpkt, rfl⟩
  | succ n ih =>
    obtain ⟨m, hm, hrun⟩ := ih (by omega) (.wr32 (BitVec.ofNat 12 (4 * n)) (packetWord p n) :: prog)
    rw [wordWrites_succ, List.append_assoc]
    exact ⟨_, hm.succ hp (by omega), runsTo_trans hrun
      (runsTo_one (step_load_packetWrite (s := { s with pkt := m }) hs (by omega) (by omega) _ prog))⟩

/-- LDPKT, then whatever follows it (R96). -/
theorem runsTo_ldpkt {s : State} {p : Bytes} (hs : s.hostProgram = []) (hpkt : s.pkt.wf = true) (hp : p.length = 188)
    (prog : List Instr) :
    runsTo 47 (s.load (ldpkt p ++ prog)) (State.load prog { s with pkt := Memory.ofBytes 0 p }) := by
  obtain ⟨m, hm, hrun⟩ := runsTo_wordWrites hs hpkt hp (le_refl 47) prog
  rwa [hm.all hp hpkt, ← ldpkt_eq] at hrun

/-- Settles O52: LDPKT with nothing after it. -/
theorem loadPacketFillsTheWholeBuffer : Obligations.LoadPacketFillsTheWholeBuffer := by
  intro s p hs hpkt hp
  have hrun := runsTo_ldpkt hs hpkt hp []
  rwa [List.append_nil, load_nil] at hrun

/-- Settles O53: LDPKT, then the step that runs ABSORB. -/
theorem feedAbsorbsThePacket : Obligations.FeedAbsorbsThePacket := by
  intro s t p hs hpkt hp habsorb
  have hstep : step (State.load [cmdWrite 2] { s with pkt := Memory.ofBytes 0 p }) = .next t := by
    rw [step_load_cons (s := { s with pkt := Memory.ofBytes 0 p }) hs rfl, load_nil]
    exact habsorb
  exact runsTo_trans (runsTo_ldpkt hs hpkt hp _) (runsTo_one hstep)

end Sys2Proof.Machine
end

section
/-! PROOFS. The header bank after an ABSORB. -/

namespace Sys2Proof.Machine

/-- The way an ABSORB ends does not touch the bank its front wrote (R110, R180). -/
theorem AbsorbEnd.tsh {p : Bytes} {s t : State} (h : AbsorbEnd p s t) : t.tsh = tshParse p := by
  cases h with
  | lost c u hd => exact hd.tsh
  | stillOpen code lo u hd => exact hd.tsh
  | finished lo u hd => exact hd.tsh

/-- Settles O19: every ABSORB leaves the bank of TSH_PARSE, which is the bits of the first four bytes. -/
theorem headerBankReproducesTheHeaderBits : Obligations.HeaderBankReproducesTheHeaderBits := by
  intro s p hp
  exact ⟨absorbStep p s, onPacket_next hp, (absorbStep_end p s).tsh.trans (tshParse_eq p)⟩

end Sys2Proof.Machine
end

section
/-! PROOFS. The adaptation-field bank after an ABSORB. -/

namespace Sys2Proof.Machine

/-- The way an ABSORB ends does not touch the adaptation-field bank either, which its front wrote exactly for a packet
with an adaptation field (R130, R138, R180). -/
theorem AbsorbEnd.af {p : Bytes} {s t : State} (h : AbsorbEnd p s t) :
    t.af = if (Spec.header p).hasAf then afParse p else s.af := by
  rw [← headerOf_tshWord_eq_header, ← tshParse_hasAf]
  cases h with
  | lost c u hd => exact hd.af
  | stillOpen code lo u hd => exact hd.af
  | finished lo u hd => exact hd.af

theorem afFailedBank_eq (p : Bytes) : afFailedBank p = { AfBank.zero with len := Spec.byte p 4 } := by
  rw [afFailedBank, ofNat_byteAt]
  rfl

/-- The PCR base the machine's shifts compute is the spec's joined bits (R84, R134). -/
theorem ofNat_pcrBaseOf (p : Bytes) : BitVec.ofNat 33 (pcrBaseOf p) = Spec.pcrBase p := pcrBaseOf_eq p

theorem pcrBase_toNat (p : Bytes) : (Spec.pcrBase p).toNat = pcrBaseOf p := by
  rw [← ofNat_pcrBaseOf, BitVec.toNat_ofNat, Nat.mod_eq_of_lt (pcrBaseOf_lt p)]

/-- Length, flags and validity of a parse that succeeds, whatever its PCR flag is (R130, R133). -/
theorem afParsedBank_fixed (p : Bytes) : (afParsedBank p).len = Spec.byte p 4 ∧ (afParsedBank p).flags = Spec.byte p 5
    ∧ (afParsedBank p).valid = true ∧ (afParsedBank p).pcrValid = (Spec.byte p 5).getLsbD 4 :=
  ⟨ofNat_byteAt p 4, ofNat_byteAt p 5, rfl, rfl⟩

/-- A set PCR flag gives the base, 300 times it in the ticks, and no stuffing (R134, R135, R137). -/
theorem afParsedBank_of_pcr {p : Bytes} (h : (Spec.byte p 5).getLsbD 4 = true) :
    (afParsedBank p).pcrBase = Spec.pcrBase p ∧ (afParsedBank p).pcrTicks.toNat = (Spec.pcrBase p).toNat * 300
      ∧ (afParsedBank p).stuff = 0 := by
  have hbit : (byteAt p 5).testBit 4 = true := h
  simp only [afParsedBank, hbit, if_true]
  exact ⟨ofNat_pcrBaseOf p, by rw [pcrTicks_toNat, pcrBase_toNat], trivial⟩

/-- A clear PCR flag gives no PCR, and the bytes after the flag byte are stuffing: none for a length of 0 (R137). -/
theorem afParsedBank_of_noPcr {p : Bytes} (h : (Spec.byte p 5).getLsbD 4 = false) :
    (afParsedBank p).pcrBase = 0 ∧ (afParsedBank p).pcrTicks = 0
      ∧ (afParsedBank p).stuff.toNat = Spec.afLen p - 1 := by
  have hbit : (byteAt p 5).testBit 4 = false := h
  have hlen := byteAt_lt p 4
  simp only [afParsedBank, hbit, Bool.false_eq_true, if_false, BitVec.toNat_ofNat, afLen_eq]
  exact ⟨trivial, trivial, Nat.mod_eq_of_lt (by omega)⟩

/-- Settles O20: every ABSORB leaves the bank of AF_PARSE where the packet has an adaptation field, the failed one for
a length above 183 and otherwise the parsed one by its PCR flag, and no other packet touches the bank. -/
theorem adaptationFieldBankByLengthAndPcrFlag : Obligations.AdaptationFieldBankByLengthAndPcrFlag := by
  intro s p hp
  have haf := (absorbStep_end p s).af
  refine ⟨absorbStep p s, onPacket_next hp, fun hno => ?_, fun hhas hlong => ?_, fun hhas hfits => ?_⟩
  · rw [haf, hno, if_neg Bool.false_ne_true]
  · rw [haf, if_pos hhas, afParse_of_fail hlong, afFailedBank_eq]
  · rw [haf, if_pos hhas, afParse_of_ok hfits]
    obtain ⟨hlen, hflags, hvalid, hpcr⟩ := afParsedBank_fixed p
    exact ⟨hlen, hflags, hvalid, hpcr, afParsedBank_of_pcr, afParsedBank_of_noPcr⟩

end Sys2Proof.Machine
end

section
/-! PROOFS. The PES bank after a START. -/

namespace Sys2Proof.Machine

/-! ### The spec's status, read off the machine's report (R152, R170) -/

theorem pesStatus_of_failure {p : Bytes} {off : Nat} {c : Cause} (h : (pesParse p off).failure = some c) :
    Spec.pesStatus p off = c := by
  rw [pesParse_failure_eq] at h
  split at h
  · cases h
  · exact Option.some.inj h

theorem pesStatus_of_no_failure {p : Bytes} {off : Nat} (h : (pesParse p off).failure = none) :
    Spec.pesStatus p off = .none := by
  rw [pesParse_failure_eq] at h
  split at h
  · assumption
  · cases h

/-! ### The spec's bank, by how the parse ends -/

/-- The machine's flags are a number below 4 exactly when the spec's two bits are (R157). -/
theorem ptsDtsFlags_eq_ofNat_iff (p : Bytes) (off : Nat) {n : Nat} (hn : n < 4) :
    Spec.ptsDtsFlags p off = BitVec.ofNat 2 n ↔ ptsDtsFlagsOf p off = n := by
  rw [ptsDtsFlags_eq_ofNat]
  exact ptsDtsFlags_eq_iff p off n hn

/-- The fixed fields the machine latches are the spec's joined bytes (R153 to R159). -/
theorem pesFixedBank_eq (p : Bytes) (off : Nat) : pesFixedBank p off =
    { PesBank.zero with
      startCode    := Spec.startCode p off
      streamId     := Spec.byte p (off + 3)
      packetLength := Spec.byte p (off + 4) ++ Spec.byte p (off + 5)
      ptsDtsFlags  := Spec.ptsDtsFlags p off
      extFlags     := (Spec.byte p (off + 7)).extractLsb' 0 6
      hdrDataLen   := Spec.byte p (off + 8)
      hdrTotalLen  := (Spec.byte p (off + 8)).setWidth 9 + 9
      startCodeOk  := Spec.startCode p off = 0x000001#24 } := by
  have htotal : BitVec.ofNat 9 (hdrTotalLenOf p off) = (Spec.byte p (off + 8)).setWidth 9 + 9 := by
    rw [hdrTotalLenOf, BitVec.ofNat_add, BitVec.add_comm, byteAt, BitVec.ofNat_toNat]
    rfl
  have hok : (startCodeOf p off == 1) = decide (Spec.startCode p off = 1#24) :=
    decide_eq_decide.mpr (startCode_eq_one_iff p off).symm
  rw [pesFixedBank, startCodeOf_eq, ofNat_byteAt, packetLengthOf_eq, ptsDtsFlagsOf_eq, extFlags_eq, ofNat_byteAt, htotal,
    hok]
  rfl

/-- A truncated parse past its first check latches the fixed fields alone (R160, R161, R167). -/
theorem pesBank_of_truncated {p : Bytes} {off : Nat}
    (h : Spec.pesStatus p off = .truncPesHdr ∨ Spec.pesStatus p off = .truncPesTs) :
    Spec.pesBank p off = pesFixedBank p off := by
  rw [pesFixedBank_eq]
  rcases h with h | h <;> simp [Spec.pesBank, h, PesBank.zero]

/-- A complete parse adds PES_VALID and the timestamps its flags select (R163 to R167). -/
theorem pesBank_of_complete {p : Bytes} {off : Nat}
    (h : Spec.pesStatus p off = .none ∨ Spec.pesStatus p off = .invalidStartCode) :
    Spec.pesBank p off = pesParsedBank p off := by
  have hmin : Spec.pesStatus p off ≠ .truncPesMin := by rcases h with h | h <;> simp [h]
  have h1 : Spec.ptsDtsFlags p off = 1#2 ↔ ptsDtsFlagsOf p off = 1 := ptsDtsFlags_eq_ofNat_iff p off (by decide)
  have h2 : Spec.ptsDtsFlags p off = 2#2 ↔ ptsDtsFlagsOf p off = 2 := ptsDtsFlags_eq_ofNat_iff p off (by decide)
  have h3 : Spec.ptsDtsFlags p off = 3#2 ↔ ptsDtsFlagsOf p off = 3 := ptsDtsFlags_eq_ofNat_iff p off (by decide)
  simp [Spec.pesBank, pesParsedBank, pesFixedBank_eq, ofNat_ts5, beq_eq_decide, h, hmin, h1, h2, h3]

/-- PES_PARSE leaves the spec's bank, however it ends (R151, R170). -/
theorem pesParse_bank_eq (p : Bytes) (off : Nat) : (pesParse p off).bank = Spec.pesBank p off := by
  rcases pesParse_cases p off with ⟨_, e⟩ | ⟨_, _, e⟩ | ⟨_, _, _, e⟩ | ⟨_, _, _, e⟩
  · have hst : Spec.pesStatus p off = .truncPesMin := pesStatus_of_failure (by rw [e])
    simp [e, Spec.pesBank, hst]
  · rw [pesBank_of_truncated (.inl (pesStatus_of_failure (by rw [e]))), e]
  · rw [pesBank_of_truncated (.inr (pesStatus_of_failure (by rw [e]))), e]
  · by_cases hcode : startCodeOf p off = 1
    · rw [pesBank_of_complete (.inl (pesStatus_of_no_failure (by rw [e, if_pos hcode]))), e]
    · rw [pesBank_of_complete (.inr (pesStatus_of_failure (by rw [e, if_neg hcode]))), e]

/-! ### The bank after a START -/

/-- A START writes neither the TSH bank nor the AF bank nor SINK_LEN, whatever row it takes (R183 to R189). -/
theorem startStep_frame (h : TsHeader) (p : Bytes) (s : State) : (startStep h p s).tsh = s.tsh
    ∧ (startStep h p s).af = s.af ∧ (startStep h p s).sinkLen = s.sinkLen := by
  rcases startStep_outcome h p s with ⟨c, _, _, e⟩ | ⟨_, e⟩ <;> rw [e] <;> simp

/-- Settles O21: a START leaves the bank of PES_PARSE at the payload, which is the spec's field by field, and the old
bank where the adaptation field is bad. -/
theorem pesBankAfterStart : Obligations.PesBankAfterStart := by
  intro s p h hp
  obtain ⟨htsh, haf, hsink⟩ := startStep_frame h p s
  refine ⟨startStep h p s, onPacket_next hp, fun hok => ?_, fun hbad => ?_, htsh, haf, hsink,
    (startStep_keeps h p s).hostSideSame⟩
  · rw [startStep_pes, startPes, if_pos hok, pesParse_bank_eq]
  · rw [startStep_pes, startPes, hbad, if_neg Bool.false_ne_true]

end Sys2Proof.Machine
end

section
/-! PROOFS. The class an ABSORB runs, and the row, RESULT and frame of each packet class as an instruction of its
own. -/

namespace Sys2Proof.Machine

/-- Settles O9: the header word is the packet's first four bytes, and the state is that of ABSORB's front. -/
theorem absorbRunsTheDecodedPacketClass : Obligations.AbsorbRunsTheDecodedPacketClass := by
  intro s p w i hp hw hi
  have hword : w = tshWord p := hw.trans (tshWord_eq p).symm
  have haf : (Spec.header p).hasAf = (tshParse p).hasAf := by rw [tshParse_hasAf, headerOf_tshWord_eq_header]
  refine ⟨absorbFront p s, execAbsorb_of_decode hp (hword ▸ hi), ?_⟩
  rw [haf]
  rfl

/-- A failure takes the LOST row of its cause with the counter it finds, as long as nothing was written (R260). -/
theorem lostRow_holds {s u : State} (c : Cause) (hlog : u.sinkLog = s.sinkLog) :
    (Spec.lostRow c u.lastCc).holds s (lose c u) :=
  ⟨rfl, rfl, rfl, rfl, rfl, by simp [Spec.lostRow, hlog]⟩

/-- Settles O23, by how the START ends. -/
theorem startTakesItsRow : Obligations.StartTakesItsRow := by
  intro s p h hp
  have hlen := ((snapshot_eq_some s p).mp hp).1
  have hhost := (startStep_keeps h p s).hostSideSame
  obtain ⟨htsh, haf, hsink⟩ := startStep_frame h p s
  refine ⟨startStep h p s, onPacket_next hp, ?_⟩
  rcases startStep_outcome h p s with ⟨c, _, hrow, e⟩ | ⟨hrow, e⟩ <;> rw [hrow] <;> rw [e] at hhost htsh haf hsink ⊢
  · have hholds := lostRow_holds (s := s) (u := setPes (startPes h p s) (opened h s)) c (by simp)
    exact ⟨by simpa using hholds, by simp, by simp, by simp, by simp, by simp, htsh, haf, hsink, hhost⟩
  · exact ⟨by simp [Spec.Row.holds, slice_to_end p hlen], by simp, by simp, by simp, fun _ => appended_toNat, by simp,
      htsh, haf, hsink, hhost⟩

/-- Settles O24, by how the CONTINUATION ends. -/
theorem continuationTakesItsRow : Obligations.ContinuationTakesItsRow := by
  intro s p h hp hwf
  have hlen := ((snapshot_eq_some s p).mp hp).1
  have hno : h.hasAf = false := by simpa [Instr.wf] using hwf
  have hhost := (continuationStep_keeps h p s).hostSideSame
  refine ⟨continuationStep h p s, onPacket_next hp, ?_⟩
  rcases continuationStep_outcome hno p s with ⟨c, _, hrow, e⟩ | ⟨hopen, _, hrow, e⟩ <;>
    rw [hrow] <;> rw [e] at hhost ⊢
  · exact ⟨lostRow_holds c rfl, rfl, rfl, rfl, rfl, rfl, rfl, rfl, by simp, fun _ => rfl, hhost⟩
  · refine ⟨?_, rfl, rfl, rfl, rfl, rfl, rfl, rfl, fun _ => rfl, by simp, hhost⟩
    simp [Spec.Row.holds, hopen, slice_to_end p hlen]

/-- Settles O25, by how the COMPLETION ends. -/
theorem completionTakesItsRow : Obligations.CompletionTakesItsRow := by
  intro s p h hp hwf
  have hlen := ((snapshot_eq_some s p).mp hp).1
  have hhost := (completionStep_keeps h p s).hostSideSame
  refine ⟨completionStep h p s, onPacket_next hp, ?_⟩
  rcases completionStep_outcome (show h.hasAf = true from hwf) p s with ⟨c, _, hrow, e⟩ | ⟨_, hrow, e⟩ <;>
    rw [hrow] <;> rw [e] at hhost ⊢
  · exact ⟨lostRow_holds c rfl, rfl, rfl, rfl, rfl, rfl, by simp, fun _ => ⟨rfl, rfl, rfl⟩, hhost⟩
  · refine ⟨?_, rfl, rfl, rfl, rfl, rfl, fun _ => ⟨rfl, ?_, appended_toNat⟩, by simp, hhost⟩
    · simp [Spec.Row.holds, slice_to_end p hlen]
    · simp [slice_to_end p hlen, hlen]

end Sys2Proof.Machine
end

section
/-! PROOFS. ABSORB takes the row of R206 its packet has, and what the row says of a failure and of a start packet. -/

namespace Sys2Proof.Machine

/-- An ABSORB takes the row of its packet (R206). -/
theorem AbsorbEnd.row_holds {p : Bytes} {s t : State} (h : AbsorbEnd p s t) (hlen : p.length = 188) :
    (Spec.row p s).holds s t := by
  cases h with
  | lost c u hd _ hrow => rw [hrow]; exact lostRow_holds c hd.sinkLog
  | stillOpen code lo u hd _ hopen _ _ _ _ hrow =>
    rw [hrow]
    simp [Spec.Row.holds, hopen, slice_to_end p hlen, hd.sinkLog]
  | finished lo u hd _ _ _ hrow =>
    rw [hrow]
    simp [Spec.Row.holds, slice_to_end p hlen, hd.sinkLog]

/-- Settles O26, by the way the ABSORB ends. -/
theorem absorbFollowsTheTransitionTable : Obligations.AbsorbFollowsTheTransitionTable := by
  intro s p hp
  have hend := absorbStep_end p s
  exact ⟨absorbStep p s, onPacket_next hp, hend.row_holds ((snapshot_eq_some s p).mp hp).1, hend.trackedPid⟩

/-- An ABSORB fails with a cause and leaves the assembler IDLE and empty, or ends without a cause in one of the three
good codes (R203). -/
theorem AbsorbEnd.lost_or_good {p : Bytes} {s t : State} (h : AbsorbEnd p s t) :
    (t.result.code = .lost ∧ t.result.cause ≠ .none ∧ t.fsm = .idle ∧ t.asmBuf = [])
      ∨ ((t.result.code = .started ∨ t.result.code = .continued ∨ t.result.code = .finished)
          ∧ t.result.cause = .none) := by
  cases h with
  | lost c u _ hc => exact .inl ⟨rfl, hc, rfl, rfl⟩
  | stillOpen code lo u _ hcode => exact .inr ⟨hcode.imp_right .inl, rfl⟩
  | finished lo u => exact .inr ⟨.inr (.inr rfl), rfl⟩

/-- Settles O28: the two kinds of ending exclude each other. -/
theorem absorbEndsWithOneOfFourCodes : Obligations.AbsorbEndsWithOneOfFourCodes := by
  intro s p hp
  refine ⟨absorbStep p s, onPacket_next hp, ?_⟩
  rcases (absorbStep_end p s).lost_or_good with ⟨hcode, hcause, hidle⟩ | ⟨hcode, hcause⟩
  · exact ⟨.inl hcode, iff_of_true hcode hcause, fun _ => hidle⟩
  · have hne : (absorbStep p s).result.code ≠ .lost := by rcases hcode with h | h | h <;> simp [h]
    exact ⟨.inr hcode, iff_of_false hne (not_not.mpr hcause), fun h => absurd h hne⟩

/-- The row of a start packet whose adaptation field and PES header parse, whatever the state (R187 to R189). -/
theorem row_of_isGoodStart {p : Bytes} (h : Spec.isGoodStart p) (s : State) : Spec.row p s =
    { code := .started, cause := .none, fsm := .assembling, lastCc := some (Spec.header p).cc
      buf := p.drop (Spec.startTailAt (Spec.header p) p s.config.raw), units := [] } := by
  obtain ⟨_, hpusi, hok, hpes⟩ := h
  simp [Spec.row, Spec.startRow, hpusi, hok, hpes]

/-- A good start packet opens its own unit, whatever was open, and writes nothing (R184, R187 to R189, R199). -/
theorem AbsorbEnd.of_isGoodStart {p : Bytes} {s t : State} (h : AbsorbEnd p s t) (hp : Spec.isGoodStart p) :
    t.result.code = .started ∧ t.fsm = .assembling ∧ t.lastCc = some (Spec.header p).cc
      ∧ t.asmBuf = p.drop (Spec.startTailAt (Spec.header p) p s.config.raw) ∧ t.sinkLog = s.sinkLog := by
  have hholds := h.row_holds hp.1
  rw [row_of_isGoodStart hp] at hholds
  obtain ⟨hcode, _, hfsm, hcc, hbuf, hlog⟩ := hholds
  exact ⟨hcode, hfsm, hcc, hbuf, hlog.trans (List.append_nil _)⟩

/-- Settles O33: the STARTED row keeps nothing of the open unit and writes no unit. -/
theorem startDiscardsTheOpenUnit : Obligations.StartDiscardsTheOpenUnit := by
  intro s p _ hp hgood
  obtain ⟨hcode, hfsm, _, hbuf, hlog⟩ := (absorbStep_end p s).of_isGoodStart hgood
  exact ⟨absorbStep p s, onPacket_next hp, hcode, hfsm, hlog, hbuf⟩

end Sys2Proof.Machine
end

section
/-! PROOFS. What an ABSORB depends on: two packets and two states alike in the inputs of the transition take the same
one. -/

namespace Sys2Proof.Machine

/-! ### Packets alike from byte 4 on -/

/-- What a transition reads of a packet (R201, R202): the bytes after the header, PUSI, HAS_AF and CC, and a start
packet's PID. -/
structure PacketsAgree (p q : Bytes) : Prop where
  tail : q.drop 4 = p.drop 4
  pusi : Spec.pusi q = Spec.pusi p
  hasAf : (Spec.header q).hasAf = (Spec.header p).hasAf
  cc : (Spec.header q).cc = (Spec.header p).cc
  pid : Spec.pusi p = true → (Spec.header q).pid = (Spec.header p).pid

theorem PacketsAgree.refl (p : Bytes) : PacketsAgree p p := ⟨rfl, rfl, rfl, rfl, fun _ => rfl⟩

theorem PacketsAgree.drop_eq {p q : Bytes} (h : PacketsAgree p q) {lo : Nat} (hlo : 4 ≤ lo) :
    q.drop lo = p.drop lo := by
  rw [← Nat.add_sub_cancel' hlo, ← List.drop_drop, h.tail, List.drop_drop]

theorem PacketsAgree.byte_eq {p q : Bytes} (h : PacketsAgree p q) {k : Nat} (hk : 4 ≤ k) :
    Spec.byte q k = Spec.byte p k := by
  have hget := congrArg (·[0]?) (h.drop_eq hk)
  simp only [List.getElem?_drop, Nat.add_zero] at hget
  rw [Spec.byte, Spec.byte, List.getD_eq_getElem?_getD, List.getD_eq_getElem?_getD, hget]

theorem PacketsAgree.byteAt_eq {p q : Bytes} (h : PacketsAgree p q) {k : Nat} (hk : 4 ≤ k) :
    byteAt q k = byteAt p k := congrArg BitVec.toNat (h.byte_eq hk)

theorem PacketsAgree.afLen_eq {p q : Bytes} (h : PacketsAgree p q) : Spec.afLen q = Spec.afLen p :=
  h.byteAt_eq (le_refl 4)

theorem PacketsAgree.afOk_eq {p q : Bytes} (h : PacketsAgree p q) :
    Spec.afOk (Spec.header q) q = Spec.afOk (Spec.header p) p := by
  rw [Spec.afOk, Spec.afOk, h.hasAf, h.afLen_eq]

theorem PacketsAgree.payloadAt_eq {p q : Bytes} (h : PacketsAgree p q) :
    Spec.payloadAt (Spec.header q) q = Spec.payloadAt (Spec.header p) p := by
  rw [Spec.payloadAt, Spec.payloadAt, h.hasAf, h.afLen_eq]

/-- AF_PARSE reads P[4] to P[10] alone (R140). -/
theorem PacketsAgree.afParse_eq {p q : Bytes} (h : PacketsAgree p q) : afParse q = afParse p := by
  have hbase : pcrBaseOf q = pcrBaseOf p := by simp (disch := decide) only [pcrBaseOf, h.byteAt_eq]
  have h4 : byteAt q 4 = byteAt p 4 := h.byteAt_eq (by decide)
  have h5 : byteAt q 5 = byteAt p 5 := h.byteAt_eq (by decide)
  rw [afParse, afParse, afLengthOk, afLengthOk, afParsedBank, afParsedBank, afFailedBank, afFailedBank, hbase, h4, h5]

/-! ### The PES header of packets alike from byte 4 on -/

section
variable {p q : Bytes} {off : Nat} (h : PacketsAgree p q) (hoff : 4 ≤ off)
include h hoff

theorem PacketsAgree.headerLength_eq : Spec.headerLength q off = Spec.headerLength p off := by
  rw [Spec.headerLength, Spec.headerLength, h.byte_eq (by omega)]

theorem PacketsAgree.ptsDtsFlags_eq : Spec.ptsDtsFlags q off = Spec.ptsDtsFlags p off := by
  rw [Spec.ptsDtsFlags, Spec.ptsDtsFlags, h.byte_eq (by omega)]

theorem PacketsAgree.startCode_eq : Spec.startCode q off = Spec.startCode p off := by
  simp (disch := omega) only [Spec.startCode, h.byte_eq]

theorem PacketsAgree.timestamp_eq : Spec.timestamp q off = Spec.timestamp p off := by
  simp (disch := omega) only [Spec.timestamp, h.byte_eq]

theorem PacketsAgree.pesStatus_eq : Spec.pesStatus q off = Spec.pesStatus p off := by
  rw [Spec.pesStatus, Spec.pesStatus, Spec.timestampReach, Spec.timestampReach, h.headerLength_eq hoff,
    h.ptsDtsFlags_eq hoff, h.startCode_eq hoff]

/-- PES_PARSE reads nothing before its offset (R150). -/
theorem PacketsAgree.pesBank_eq : Spec.pesBank q off = Spec.pesBank p off := by
  rw [Spec.pesBank, Spec.pesBank, h.pesStatus_eq hoff, h.ptsDtsFlags_eq hoff, h.startCode_eq hoff,
    h.timestamp_eq (off := off + 9) (by omega), h.timestamp_eq (off := off + 14) (by omega),
    h.byte_eq (k := off + 3) (by omega), h.byte_eq (k := off + 4) (by omega), h.byte_eq (k := off + 5) (by omega),
    h.byte_eq (k := off + 7) (by omega), h.byte_eq (k := off + 8) (by omega)]

end

theorem PacketsAgree.startTailAt_eq {p q : Bytes} (h : PacketsAgree p q) (raw : Bool) :
    Spec.startTailAt (Spec.header q) q raw = Spec.startTailAt (Spec.header p) p raw := by
  rw [Spec.startTailAt, Spec.startTailAt, h.payloadAt_eq, h.headerLength_eq (four_le_payloadAt ..)]

theorem PacketsAgree.appendedCount_eq {p q : Bytes} (h : PacketsAgree p q) (raw : Bool) (code : Code) :
    Spec.appendedCount (Spec.header q) q raw code = Spec.appendedCount (Spec.header p) p raw code := by
  cases code <;> simp only [Spec.appendedCount, h.startTailAt_eq, h.payloadAt_eq]

/-! ### States alike in the inputs of R204 -/

/-- The fields of a state a transition reads beside PKT (R204). -/
structure StatesAgree (s s' : State) : Prop where
  raw : s'.config.raw = s.config.raw
  fsm : s'.fsm = s.fsm
  lastCc : s'.lastCc = s.lastCc
  trackedPid : s'.trackedPid = s.trackedPid
  asmBuf : s'.asmBuf = s.asmBuf
  asmCap : s'.asmCap = s.asmCap

section
variable {p q : Bytes} {s s' : State} (hp : PacketsAgree p q) (hs : StatesAgree s s')
include hp hs

theorem startRow_congr : Spec.startRow (Spec.header q) q s' = Spec.startRow (Spec.header p) p s := by
  rw [Spec.startRow, Spec.startRow, hp.afOk_eq, hp.payloadAt_eq, hp.pesStatus_eq (four_le_payloadAt ..), hp.cc,
    hs.lastCc, hs.raw, hp.startTailAt_eq, hp.drop_eq (four_le_startTailAt ..)]

theorem nonStartRow_congr : Spec.nonStartRow (Spec.header q) q s' = Spec.nonStartRow (Spec.header p) p s := by
  rw [Spec.nonStartRow, Spec.nonStartRow, hp.cc, hs.lastCc, hs.fsm, hp.afOk_eq, hs.asmBuf, hp.payloadAt_eq, hs.asmCap,
    hp.hasAf, hp.tail, hp.drop_eq (four_le_payloadAt ..)]

/-- The row of R206 is a function of what a transition reads. -/
theorem row_congr : Spec.row q s' = Spec.row p s := by
  rw [Spec.row, Spec.row, hp.pusi, startRow_congr hp hs, nonStartRow_congr hp hs]

end

/-! ### The same transition -/

/-- RESULT after an ABSORB, whatever it held before (R30, R182). -/
theorem AbsorbEnd.result {p : Bytes} {s t : State} (h : AbsorbEnd p s t) : t.result =
    { code := (Spec.row p s).code, cause := (Spec.row p s).cause
      unexpectedPid := Spec.pusi p && decide ((Spec.header p).pid ≠ s.trackedPid)
      sinkWritten := decide ((Spec.row p s).code = .finished)
      appended := BitVec.ofNat 8 (Spec.appendedCount (Spec.header p) p s.config.raw (Spec.row p s).code) } := by
  obtain ⟨hcode, hcause⟩ := h.code_cause
  obtain ⟨hpid, hwritten, happended⟩ := h.result_flags
  rw [← hcode, ← hcause, ← hpid, ← hwritten, ← happended, BitVec.ofNat_toNat, BitVec.setWidth_eq]

/-- Two transitions end alike: in the assembler's registers and in RESULT (R204). -/
structure SameTransition (t t' : State) : Prop where
  fsm : t'.fsm = t.fsm
  lastCc : t'.lastCc = t.lastCc
  trackedPid : t'.trackedPid = t.trackedPid
  asmBuf : t'.asmBuf = t.asmBuf
  result : t'.result = t.result

section
variable {p q : Bytes} {s s' t t' : State} (h : AbsorbEnd p s t) (h' : AbsorbEnd q s' t') (hp : PacketsAgree p q)
  (hs : StatesAgree s s')
include h h' hp hs

theorem AbsorbEnd.trackedPid_congr : t'.trackedPid = t.trackedPid := by
  rw [h.trackedPid, h'.trackedPid, hp.pusi, hs.trackedPid]
  split
  next hpusi => exact hp.pid hpusi
  next => rfl

theorem AbsorbEnd.result_congr : t'.result = t.result := by
  have hpid : (Spec.pusi p && decide ((Spec.header q).pid ≠ s.trackedPid))
      = (Spec.pusi p && decide ((Spec.header p).pid ≠ s.trackedPid)) := by
    cases hpusi : Spec.pusi p with
    | false => rfl
    | true => rw [hp.pid hpusi]
  rw [h.result, h'.result, row_congr hp hs, hp.pusi, hs.trackedPid, hpid, hs.raw, hp.appendedCount_eq]

/-- Packets and states alike in what a transition reads take the same one (R201, R202, R204). -/
theorem AbsorbEnd.sameTransition (hlen : p.length = 188) (hlen' : q.length = 188) : SameTransition t t' := by
  obtain ⟨_, _, hfsm, hcc, hbuf, _⟩ := h.row_holds hlen
  obtain ⟨_, _, hfsm', hcc', hbuf', _⟩ := h'.row_holds hlen'
  rw [row_congr hp hs] at hfsm' hcc' hbuf'
  exact ⟨hfsm'.trans hfsm.symm, hcc'.trans hcc.symm, h.trackedPid_congr h' hp hs, hbuf'.trans hbuf.symm,
    h.result_congr h' hp hs⟩

/-- They write the same units, those of their row. -/
theorem AbsorbEnd.same_units (hlen : p.length = 188) (hlen' : q.length = 188) :
    t.sinkLog = s.sinkLog ++ (Spec.row p s).units ∧ t'.sinkLog = s'.sinkLog ++ (Spec.row p s).units := by
  obtain ⟨_, _, _, _, _, hlog⟩ := h.row_holds hlen
  obtain ⟨_, _, _, _, _, hlog'⟩ := h'.row_holds hlen'
  rw [row_congr hp hs] at hlog'
  exact ⟨hlog, hlog'⟩

end

/-- Settles O30, for one packet in two states. -/
theorem absorbDependsOnlyOnTheAssemblerState : Obligations.AbsorbDependsOnlyOnTheAssemblerState := by
  intro s s' p hp hp' hraw hfsm hcc hpid hbuf hcap
  have hs : StatesAgree s s' := ⟨hraw, hfsm, hcc, hpid, hbuf, hcap⟩
  have hlen := ((snapshot_eq_some s p).mp hp).1
  have hend := absorbStep_end p s
  have hend' := absorbStep_end p s'
  have hsame := hend.sameTransition hend' (.refl p) hs hlen hlen
  exact ⟨absorbStep p s, absorbStep p s', (Spec.row p s).units, onPacket_next hp, onPacket_next hp', hsame.fsm,
    hsame.lastCc, hsame.trackedPid, hsame.asmBuf, hsame.result, hend'.tsh.trans hend.tsh.symm,
    hend.same_units hend' (.refl p) hs hlen hlen⟩

/-! ### SINK_LEN and the parsers' banks of the same transition -/

/-- The same transition from the same sink leaves the same SINK_LEN (R35). -/
theorem AbsorbEnd.sinkLen_congr {p q : Bytes} {s s' t t' : State} (h : AbsorbEnd p s t) (h' : AbsorbEnd q s' t')
    (hcode : t'.result.code = t.result.code) (hlen : s'.sinkLen = s.sinkLen) (hold : s'.sinkLog = s.sinkLog)
    (hnew : t'.sinkLog = t.sinkLog) : t'.sinkLen = t.sinkLen := by
  rcases h.sink with ⟨hc, hkept, _⟩ | ⟨hc, u, hlog, hwritten⟩ <;>
    rcases h'.sink with ⟨hc', hkept', _⟩ | ⟨hc', u', hlog', hwritten'⟩
  · rw [hkept, hkept', hlen]
  · exact absurd (hcode.symm.trans hc') hc
  · exact absurd (hcode.trans hc) hc'
  · rw [hlog, hlog', hold, List.append_right_inj, List.singleton_inj] at hnew
    rw [hwritten, hwritten', hnew]

/-- The PES bank after an ABSORB: that of the spec's parse after a start packet with a sound adaptation field, and as
before otherwise (R151, R185). -/
theorem absorbStep_pes (p : Bytes) (s : State) : (absorbStep p s).pes =
    if Spec.pusi p && Spec.afOk (Spec.header p) p then Spec.pesBank p (Spec.payloadAt (Spec.header p) p)
    else s.pes := by
  cases hpusi : Spec.pusi p with
  | false => exact (absorbStep_end p s).pes_of_nonStart hpusi
  | true =>
    rw [absorbStep_eq, if_pos hpusi, startStep_pes, startPes, pesParse_bank_eq]
    rfl

/-- Settles O31: the two packets agree in what a transition reads, and the two states differ only in PKT. -/
theorem ignoredHeaderFieldsNeverChangeATransition : Obligations.IgnoredHeaderFieldsNeverChangeATransition := by
  intro s s' p q hp hq hstate htail hpusi haf hcc hpid
  obtain ⟨m, rfl⟩ : ∃ m, s' = { s with pkt := m } := ⟨_, hstate⟩
  have hpq : PacketsAgree p q := ⟨htail, hpusi, haf, hcc, hpid⟩
  have hs : StatesAgree s { s with pkt := m } := ⟨rfl, rfl, rfl, rfl, rfl, rfl⟩
  have hlen := ((snapshot_eq_some _ p).mp hp).1
  have hlen' := ((snapshot_eq_some _ q).mp hq).1
  have hend := absorbStep_end p s
  have hend' := absorbStep_end q { s with pkt := m }
  have hsame := hend.sameTransition hend' hpq hs hlen hlen'
  have hlog : (absorbStep q { s with pkt := m }).sinkLog = (absorbStep p s).sinkLog := by
    obtain ⟨e, e'⟩ := hend.same_units hend' hpq hs hlen hlen'
    exact e'.trans e.symm
  have hsink := hend.sinkLen_congr hend' (congrArg ResultReg.code hsame.result) rfl rfl hlog
  refine ⟨absorbStep p s, absorbStep q { s with pkt := m }, onPacket_next hp, onPacket_next hq, hsame.fsm,
    hsame.lastCc, hsame.trackedPid, hsame.asmBuf, hsame.result, hlog, hsink, ?_, ?_⟩
  · rw [absorbStep_pes, absorbStep_pes, hpusi, hpq.afOk_eq, hpq.payloadAt_eq, hpq.pesBank_eq (four_le_payloadAt ..)]
  · rw [hend.af, hend'.af, haf, hpq.afParse_eq]

end Sys2Proof.Machine
end

section
/-! PROOFS. The unit a start packet, its continuations and its completion write. -/

namespace Sys2Proof.Machine

/-! ### Feeding one packet -/

/-- The state after an ABSORB of `p` as the content of PKT (R72). -/
def fed (p : Bytes) (s : State) : State := absorbStep p { s with pkt := Memory.ofBytes 0 p }

theorem absorbAll_cons {p : Bytes} (hlen : p.length = 188) (r : List Bytes) (s : State) :
    Spec.absorbAll (p :: r) s = Spec.absorbAll r (fed p s) := by
  have hsnap : snapshot { s with pkt := Memory.ofBytes 0 p } = some p := by
    rw [snapshot, Config.pktSize, ← hlen]
    exact Memory.readBytes_ofBytes p
  rw [Spec.absorbAll, exec_absorb, onPacket_next hsnap, fed]

theorem fed_asmCap (p : Bytes) (s : State) : (fed p s).asmCap = s.asmCap := (absorbStep_keeps p _).asmCap

theorem fed_end (p : Bytes) (s : State) : AbsorbEnd p { s with pkt := Memory.ofBytes 0 p } (fed p s) :=
  absorbStep_end p _

/-- The row a packet takes does not read PKT beside the packet itself. -/
theorem fed_row_holds {p : Bytes} (hlen : p.length = 188) (s : State) : (Spec.row p s).holds s (fed p s) :=
  (fed_end p s).row_holds hlen

/-- SINK_LEN is the length of the unit just written (R35, R196). -/
theorem fed_sinkLen {p : Bytes} {s : State} {u : Bytes} (hcode : (fed p s).result.code = .finished)
    (hlog : (fed p s).sinkLog = s.sinkLog ++ [u]) : (fed p s).sinkLen = BitVec.ofNat 32 u.length := by
  rcases (fed_end p s).sink with ⟨hne, _, _⟩ | ⟨_, v, hv, hlen⟩
  · exact absurd hcode hne
  · obtain rfl : u = v := List.singleton_inj.mp (List.append_cancel_left (hlog.symm.trans hv))
    exact hlen

/-! ### The rows of packets in sequence -/

section
variable {p : Bytes} {s : State} {cc : BitVec 4} (hopen : s.fsm = .assembling) (hlast : s.lastCc = some cc)
  (hcc : (Spec.header p).cc = cc + 1)
include hopen hlast hcc

/-- A continuation in sequence that fits takes the CONTINUE row (R194). -/
theorem row_of_isContinuation (hp : Spec.isContinuation p) (hfit : s.asmBuf.length + 184 ≤ s.asmCap) : Spec.row p s =
    { code := .continued, cause := .none, fsm := .assembling, lastCc := some (Spec.header p).cc
      buf := s.asmBuf ++ p.drop 4, units := [] } := by
  obtain ⟨_, hpusi, haf⟩ := hp
  simp [Spec.row, Spec.nonStartRow, Spec.inSequence, hpusi, hlast, hcc, hopen, afOk_of_noAf haf,
    payloadAt_of_noAf haf, haf, Nat.not_lt.mpr hfit]

/-- A completion in sequence that fits takes the FINISHED row (R195, R196). -/
theorem row_of_isCompletion (hp : Spec.isCompletion p)
    (hfit : s.asmBuf.length + (188 - (5 + Spec.afLen p)) ≤ s.asmCap) : Spec.row p s =
    { code := .finished, cause := .none, fsm := .idle, lastCc := some (Spec.header p).cc
      buf := [], units := [s.asmBuf ++ p.drop (5 + Spec.afLen p)] } := by
  obtain ⟨_, hpusi, haf, hlen⟩ := hp
  have hpay : Spec.payloadAt (Spec.header p) p = 5 + Spec.afLen p := payloadAt_of_af haf
  simp [Spec.row, Spec.nonStartRow, Spec.inSequence, hpusi, hlast, hcc, hopen, (afOk_iff_of_af haf).mpr hlen, hpay, haf,
    Nat.not_lt.mpr hfit]

end

/-! ### Feeding the rest of an open unit -/

/-- The bytes that continuations and a completion add to an open unit (R205). -/
def unitTail (middle : List Bytes) (last : Bytes) : Bytes :=
  middle.flatMap (fun p => p.drop 4) ++ last.drop (5 + Spec.afLen last)

theorem unitTail_cons (p : Bytes) (middle : List Bytes) (last : Bytes) :
    unitTail (p :: middle) last = p.drop 4 ++ unitTail middle last := by
  simp [unitTail]

theorem unitOf_eq (raw : Bool) (first : Bytes) (middle : List Bytes) (last : Bytes) :
    Spec.unitOf raw first middle last =
      first.drop (Spec.startTailAt (Spec.header first) first raw) ++ unitTail middle last := List.append_assoc ..

theorem unitTail_length {middle : List Bytes} {last : Bytes} (hmiddle : ∀ p ∈ middle, p.length = 188)
    (hlast : last.length = 188) : (unitTail middle last).length = 184 * middle.length + (183 - Spec.afLen last) := by
  induction middle with
  | nil => simp only [unitTail, List.flatMap_nil, List.nil_append, List.length_drop, List.length_nil, hlast]; omega
  | cons p r ih =>
    have hp := hmiddle p List.mem_cons_self
    rw [unitTail_cons, List.length_append, ih fun q hq => hmiddle q (List.mem_cons_of_mem p hq), List.length_drop, hp,
      List.length_cons]
    omega

/-- What the sink and the assembler are after an open unit was completed as `u`. -/
structure Completed (s : State) (u : Bytes) (t : State) : Prop where
  sinkLog : t.sinkLog = s.sinkLog ++ [u]
  code : t.result.code = .finished
  fsm : t.fsm = .idle
  asmBuf : t.asmBuf = []
  sinkLen : t.sinkLen = BitVec.ofNat 32 u.length

/-- Continuations and a completion in sequence complete the open unit as its bytes and theirs (R194 to R196). -/
theorem absorbAll_completes {s : State} {cc : BitVec 4} {middle : List Bytes} {last : Bytes}
    (hopen : s.fsm = .assembling) (hcc : s.lastCc = some cc) (hmiddle : ∀ p ∈ middle, Spec.isContinuation p)
    (hlast : Spec.isCompletion last) (hchain : Spec.ccChain cc (middle ++ [last]))
    (hfit : (s.asmBuf ++ unitTail middle last).length ≤ s.asmCap) :
    ∃ t, Spec.absorbAll (middle ++ [last]) s = .next t ∧ Completed s (s.asmBuf ++ unitTail middle last) t := by
  induction middle generalizing s cc with
  | nil =>
    have hlen := hlast.1
    have hroom : s.asmBuf.length + (188 - (5 + Spec.afLen last)) ≤ s.asmCap := by
      simpa [unitTail, hlen] using hfit
    have hholds := fed_row_holds hlen s
    rw [row_of_isCompletion hopen hcc hchain.1 hlast hroom] at hholds
    obtain ⟨hcode, _, hfsm, _, hbuf, hlog⟩ := hholds
    exact ⟨fed last s, absorbAll_cons hlen [] s, hlog, hcode, hfsm, hbuf, fed_sinkLen hcode hlog⟩
  | cons p r ih =>
    obtain ⟨hpcc, hrest⟩ := hchain
    have hp := hmiddle p List.mem_cons_self
    have hlen := hp.1
    rw [unitTail_cons, ← List.append_assoc] at hfit ⊢
    have hroom : s.asmBuf.length + 184 ≤ s.asmCap := by
      simp only [List.length_append, List.length_drop, hlen] at hfit
      omega
    have hholds := fed_row_holds hlen s
    rw [row_of_isContinuation hopen hcc hpcc hp hroom] at hholds
    obtain ⟨_, _, hfsm, hnext, hbuf, hlog⟩ := hholds
    obtain ⟨t, hrun, hdone⟩ := ih hfsm hnext (fun q hq => hmiddle q (List.mem_cons_of_mem p hq)) hrest
      (by rwa [hbuf, fed_asmCap])
    rw [hbuf] at hdone
    refine ⟨t, (absorbAll_cons hlen _ s).trans hrun, ?_, hdone.code, hdone.fsm, hdone.asmBuf, hdone.sinkLen⟩
    rw [hdone.sinkLog, hlog, List.append_nil]

/-- Settles O32: the start packet opens the unit, whatever was open, and the rest completes it. -/
theorem unitIsTheConcatenationOfItsPackets : Obligations.UnitIsTheConcatenationOfItsPackets := by
  intro s first last middle hfirst hmiddle hlast hchain hfit
  have hlen := hfirst.1
  obtain ⟨_, hopen, hcc, hbuf, hlog⟩ := (fed_end first s).of_isGoodStart hfirst
  have hunit : Spec.unitOf s.config.raw first middle last = (fed first s).asmBuf ++ unitTail middle last := by
    rw [hbuf, unitOf_eq]
  rw [hunit] at hfit ⊢
  obtain ⟨t, hrun, hdone⟩ := absorbAll_completes hopen hcc hmiddle hlast hchain (by rwa [fed_asmCap])
  refine ⟨t, (absorbAll_cons hlen _ s).trans hrun, ?_, hdone.code, hdone.fsm, hdone.asmBuf, hdone.sinkLen,
    fun hraw => ?_⟩
  · rw [hdone.sinkLog, hlog]
  · have htail : Spec.startTailAt (Spec.header first) first s.config.raw = Spec.payloadAt (Spec.header first) first
        + Spec.headerLength first (Spec.payloadAt (Spec.header first) first) := by
      rw [hraw]
      rfl
    rw [hbuf, List.length_append, List.length_drop, hlen, unitTail_length (fun p hp => (hmiddle p hp).1) hlast.1,
      Nat.add_assoc, ← htail]

end Sys2Proof.Machine
end

section
/-! PROOFS. What a write to CMD does and leaves: the decoded command, a reserved word, and the fresh assembler of INIT. -/

namespace Sys2Proof.Machine

/-! ### Writes to CMD -/

/-- A word that is no command sets CMD_ERR (R224). -/
theorem runCommand_reserved {d : Word} (h0 : d ≠ 0) (h1 : d ≠ 1) (h2 : d ≠ 2) (s : State) :
    runCommand d s = .next (raiseCommandError s) := by
  rcases runCommand_cases d s with ⟨h, _⟩ | ⟨h, _⟩ | ⟨h, _⟩ | ⟨_, _, _, hrun⟩
  · exact absurd h h0
  · exact absurd h h1
  · exact absurd h h2
  · exact hrun

/-- A byte write past PKT only raises the BusError (R243). -/
theorem execWr8_outside {a : Addr} (ha : 187 < a.toNat) (d : Byte) (s : State) :
    execWr8 a d s = .next (raiseBusError s) := by
  rcases execWr8_cases a d s with ⟨hin, _⟩ | ⟨_, hrun⟩
  · exact absurd hin (Nat.not_le_of_lt ha)
  · exact hrun

/-- Settles O8: the word write runs the decoded command; CMD lies past PKT, where no byte write is stored. -/
theorem commandWriteRunsTheDecodedCommand : Obligations.CommandWriteRunsTheDecodedCommand := by
  constructor
  · intro s d i hdec
    rw [exec_wr32_command, runCommand_of_decode hdec]
  · intro s d
    exact execWr8_outside (by decide) d s

/-- Settles O16: the word 0 decodes to NOP. -/
theorem nopLeavesTheWholeState : Obligations.NopLeavesTheWholeState := by
  intro s
  have hword : exec (.wr32 0x100#12 0x00000000#32) s = exec .nop s := by
    rw [exec_wr32_command, runCommand_of_decode (i := .nop) rfl]
  exact ⟨exec_nop s, hword.trans (exec_nop s)⟩

/-- Settles O18: the word encodes no command. -/
theorem reservedCommandSetsOnlyCmdErr : Obligations.ReservedCommandSetsOnlyCmdErr := by
  intro s d h0 h1 h2
  rw [exec_wr32_command, runCommand_reserved h0 h1 h2]
  rfl

/-! ### INIT -/

/-- INIT leaves in each register what a reset does, except in CONFIG, which it keeps, and in STATUS, which shows
TRACKED_PID (R222, R290). -/
theorem regValue_initialise {r : Reg} (hconfig : r ≠ .config) (hstatus : r ≠ .status) (s : State) :
    regValue r (initialise s) = 0 := by
  have hreset : regValue r (initialise s) = regValue r (State.resetWith s.asmCap) := by
    cases r
    case config => exact absurd rfl hconfig
    case status => exact absurd rfl hstatus
    all_goals rfl
  rw [hreset, regValue_resetWith]

/-- Settles O17: every field of the state INIT leaves, and the registers by `regValue_initialise`. -/
theorem initRestoresTheFreshAssembler : Obligations.InitRestoresTheFreshAssembler := by
  intro s
  have hresult : (initialise s).result.word = 0 :=
    regValue_initialise (r := .result) (by decide) (by decide) s
  exact ⟨initialise s, exec_init s, rfl, rfl, rfl, rfl, rfl, hresult, rfl, rfl, rfl,
    fun _ hconfig hstatus => regValue_initialise hconfig hstatus s, rfl, rfl, rfl, rfl, rfl, rfl, rfl, rfl, rfl⟩

end Sys2Proof.Machine
end

section
/-! PROOFS. The host's reads and writes, address range by address range: the byte and the word in PKT, the registers,
CONFIG, and the addresses an access may not use or that ignore it. -/

namespace Sys2Proof.Machine

/-! ### RD8 -/

theorem execRd8_packet {a : Addr} {s : State} {b : Byte} (ha : a.toNat ≤ 187) (h : s.pkt.read a.toNat = some b) :
    execRd8 a s = .next (returnRead (.byte b) s) := by
  rw [execRd8, if_pos ((inPkt_iff a).mpr ha), h]

theorem execRd8_outside {a : Addr} (ha : 187 < a.toNat) (s : State) :
    execRd8 a s = .next (returnRead (.byte 0) (raiseBusError s)) := by
  rw [execRd8, if_neg (by rw [inPkt_iff]; omega)]

/-- Settles O35: the address is in PKT or past it. -/
theorem byteReadReturnsThePacketByte : Obligations.ByteReadReturnsThePacketByte :=
  ⟨fun _ _ _ ha hread => execRd8_packet ha hread, fun s _ ha => execRd8_outside ha s⟩

/-! ### RD32 -/

theorem execRd32_misaligned {a : Addr} (h4 : a.toNat % 4 ≠ 0) (s : State) :
    execRd32 a s = .next (returnRead (.word 0) (raiseBusError s)) := by
  rw [execRd32, if_neg (by rwa [aligned_iff])]

theorem execRd32_outside {a : Addr} (h4 : a.toNat % 4 = 0) (ha : 187 < a.toNat) (s : State) :
    execRd32 a s = .next (returnRead (.word (registerRead a s)) s) := by
  rw [execRd32, if_pos ((aligned_iff a).mpr h4), if_neg (by rw [inPkt_iff]; omega)]

theorem execRd32_of_readBytes {a : Addr} {s : State} {b0 b1 b2 b3 : Byte} (h4 : a.toNat % 4 = 0) (ha : a.toNat ≤ 187)
    (h : s.pkt.readBytes a.toNat 4 = some [b0, b1, b2, b3]) :
    execRd32 a s = .next (returnRead (.word (wordLE b0 b1 b2 b3)) s) := by
  rw [execRd32, if_pos ((aligned_iff a).mpr h4), if_pos ((inPkt_iff a).mpr ha), h]

theorem registerRead_of_register {a : Addr} {r : Reg} (h : regAt a.toNat = some r) (s : State) :
    registerRead a s = regValue r s := by simp only [registerRead, h]

theorem registerRead_of_reserved {a : Addr} (h : regAt a.toNat = none) (s : State) : registerRead a s = 0 := by
  simp only [registerRead, h]

/-- What a register reads as, with the case of CMD, which stores nothing, set apart (R225). -/
theorem ite_cmd_eq_regValue (r : Reg) (s : State) : (if r = .cmd then 0 else regValue r s) = regValue r s := by
  split
  next hcmd => rw [hcmd]; rfl
  next => rfl

/-- Settles O36: a PKT word whose four bytes hold values, a register, a reserved address, a misaligned address, and
a PKT word with a byte that holds none. -/
theorem wordReadReturnsPacketRegisterOrZero : Obligations.WordReadReturnsPacketRegisterOrZero := by
  refine ⟨?packet, ?register, ?reserved, fun s a h4 => execRd32_misaligned h4 s, ?unwritten⟩
  case packet =>
    intro s a b0 b1 b2 b3 h4 ha h0 h1 h2 h3
    have hbytes : s.pkt.readBytes a.toNat 4 = some [b0, b1, b2, b3] := by
      refine (Memory.readBytes_eq_some _ _ _ _).mpr ⟨rfl, fun i hi => ?_⟩
      match i with
      | 0 => exact h0
      | 1 => exact h1
      | 2 => exact h2
      | 3 => exact h3
    exact execRd32_of_readBytes h4 (by omega) hbytes
  case register =>
    intro s a r hr
    obtain ⟨h4, hlo, _⟩ := regAt_bounds hr
    rw [ite_cmd_eq_regValue, ← registerRead_of_register hr]
    exact execRd32_outside h4 (by omega) s
  case reserved =>
    intro s a h4 ha hr
    rw [← registerRead_of_reserved hr s]
    exact execRd32_outside h4 ha s
  case unwritten =>
    intro s a k h4 ha hk hread
    exact execRd32_unwritten h4 (by omega) ((Memory.readBytes_eq_none _ _ _).mpr ⟨k, hk, hread⟩)

/-! ### WR8 and WR32 -/

/-- Settles O37: the buffer after the write is the old one with one byte written. -/
theorem byteWriteChangesOnlyThatByte : Obligations.ByteWriteChangesOnlyThatByte :=
  ⟨fun s a d ha => ⟨s.pkt.write a.toNat d, execWr8_packet ha d s, Memory.read_write_same _ _ _,
    fun _ hc => Memory.read_write_ne _ d hc⟩, fun s _ d ha => execWr8_outside ha d s⟩

theorem execWr32_misaligned {a : Addr} (h4 : a.toNat % 4 ≠ 0) (d : Word) (s : State) :
    execWr32 a d s = .next (raiseBusError s) := by
  rw [execWr32, if_neg (by rwa [aligned_iff])]

/-- Byte k of a written word is its lane k (R63). -/
theorem bytesLE_getElem? (d : Word) {k : Nat} (hk : k < 4) : (bytesLE d)[k]? = some (d.extractLsb' (8 * k) 8) := by
  match k with
  | 0 | 1 | 2 | 3 => rfl

/-- Settles O38: the buffer after the write is the old one with the word's four lanes written from `a` on. -/
theorem wordWriteChangesOnlyItsFourBytes : Obligations.WordWriteChangesOnlyItsFourBytes := by
  refine ⟨fun s a d h4 ha => ?packet, fun s a d h4 => execWr32_misaligned h4 d s⟩
  refine ⟨s.pkt.writeBytes a.toNat (bytesLE d), execWr32_packet h4 (by omega) d s, fun k hk => ?inside,
    fun c hc => ?outside⟩ <;> rw [Memory.read_writeBytes, bytesLE_length]
  case inside => rw [if_pos (by omega), Nat.add_sub_cancel_left, bytesLE_getElem? d hk]
  case outside => rw [if_neg (by omega)]

/-- CONFIG reads back as the word written to it without its reserved bits (R23, R245). -/
theorem configOf_word_eq_and (d : Word) : (configOf d).word = d &&& 0x00011FFF#32 := by
  rw [ConfigReg.word_eq, configOf]
  refine BitVec.eq_of_getLsbD_eq fun i hi => ?_
  simp only [BitVec.getLsbD_append, BitVec.getLsbD_and]
  interval_cases i <;> simp

/-- Settles O40: what is stored is `configOf` of the data. -/
theorem configWriteKeepsPidAndRaw : Obligations.ConfigWriteKeepsPidAndRaw :=
  fun s d => ⟨configOf d, exec_wr32_config d s, rfl, rfl, configOf_word_eq_and d⟩

/-- Settles O41: of the ways of a WR32 only the last, which ignores the data, is at such an address. -/
theorem writesToReadOnlyAndReservedAreIgnored : Obligations.WritesToReadOnlyAndReservedAreIgnored := by
  intro s a d h4 ha hcmd hconfig
  rcases execWr32_cases a d s with ⟨hmis, _⟩ | ⟨_, hpkt, _⟩ | ⟨hc, _⟩ | ⟨hc, _⟩ | ⟨_, _, _, _, hrun⟩
  · exact absurd h4 hmis
  · omega
  · exact absurd hc hcmd
  · exact absurd hc hconfig
  · exact hrun

end Sys2Proof.Machine
end

section
/-! PROOFS. With PKT written every instruction completes: a read of an unwritten PKT byte is the only fault (R46). -/

namespace Sys2Proof.Machine

/-- A written packet has every byte of PKT (R46). -/
theorem read_ne_none_of_snapshot {s : State} {p : Bytes} {c : Nat} (hp : snapshot s = some p) (hc : c < 188) :
    s.pkt.read c ≠ none := by
  intro hnone
  have hsnap : snapshot s = none := (snapshot_eq_none s).mpr ⟨c, hc, hnone⟩
  rw [hp] at hsnap
  cases hsnap

theorem execRd8_completes {s : State} {p : Bytes} (hp : snapshot s = some p) (a : Addr) :
    ∃ t, execRd8 a s = .next t := by
  by_cases ha : a.toNat ≤ 187
  · obtain ⟨b, hb⟩ := Option.ne_none_iff_exists'.mp (read_ne_none_of_snapshot hp (Nat.lt_succ_of_le ha))
    exact ⟨_, execRd8_packet ha hb⟩
  · exact ⟨_, execRd8_outside (Nat.lt_of_not_le ha) s⟩

/-- PKT is a whole number of words, so an aligned word that begins in it lies in it. -/
theorem execRd32_completes {s : State} {p : Bytes} (hp : snapshot s = some p) (a : Addr) :
    ∃ t, execRd32 a s = .next t := by
  by_cases h4 : a.toNat % 4 = 0
  · by_cases ha : a.toNat ≤ 187
    · obtain ⟨w, hrun, _⟩ := execRd32_packet h4 ha fun k _ => read_ne_none_of_snapshot hp (by omega)
      exact ⟨_, hrun⟩
    · exact ⟨_, execRd32_outside h4 (Nat.lt_of_not_le ha) s⟩
  · exact ⟨_, execRd32_misaligned h4 s⟩

theorem execWr8_completes (a : Addr) (d : Byte) (s : State) : ∃ t, execWr8 a d s = .next t := by
  rcases execWr8_cases a d s with ⟨_, hrun⟩ | ⟨_, hrun⟩
  · exact ⟨_, hrun⟩
  · exact ⟨_, hrun⟩

theorem runCommand_completes {s : State} {p : Bytes} (hp : snapshot s = some p) (d : Word) :
    ∃ t, runCommand d s = .next t := by
  rcases runCommand_cases d s with ⟨_, hnop⟩ | ⟨_, hinit⟩ | ⟨_, habsorb⟩ | ⟨_, _, _, hreserved⟩
  · exact ⟨_, hnop⟩
  · exact ⟨_, hinit⟩
  · exact ⟨_, habsorb.trans (onPacket_next hp)⟩
  · exact ⟨_, hreserved⟩

theorem execWr32_completes {s : State} {p : Bytes} (hp : snapshot s = some p) (a : Addr) (d : Word) :
    ∃ t, execWr32 a d s = .next t := by
  rcases execWr32_cases a d s with
    ⟨_, hmis⟩ | ⟨_, _, hpacket⟩ | ⟨_, hcmd⟩ | ⟨_, hconfig⟩ | ⟨_, _, _, _, hignored⟩
  · exact ⟨_, hmis⟩
  · exact ⟨_, hpacket⟩
  · rw [hcmd]
    exact runCommand_completes hp d
  · exact ⟨_, hconfig⟩
  · exact ⟨_, hignored⟩

/-- Every instruction completes on a written packet: an error in it is a LOST result, one of the bus or of a command
word a sticky bit (R260, R272). -/
theorem exec_completes {s : State} {p : Bytes} (hp : snapshot s = some p) (i : Instr) : ∃ t, exec i s = .next t := by
  cases i with
  | nop => exact ⟨_, exec_nop s⟩
  | init => exact ⟨_, exec_init s⟩
  | absorb => exact ⟨_, (exec_absorb s).trans (onPacket_next hp)⟩
  | start h => exact ⟨_, (exec_start h s).trans (onPacket_next hp)⟩
  | continuation h => exact ⟨_, (exec_continuation h s).trans (onPacket_next hp)⟩
  | completion h => exact ⟨_, (exec_completion h s).trans (onPacket_next hp)⟩
  | rd8 a => exact execRd8_completes hp a
  | rd32 a => exact execRd32_completes hp a
  | wr8 a d => exact execWr8_completes a d s
  | wr32 a d => exact execWr32_completes hp a d

/-- Settles O43: with no line left the step changes nothing; else it runs the decoded line, with the packet still
written once the line is issued. -/
theorem writtenPacketNeverStops : Obligations.WrittenPacketNeverStops := by
  intro s p hp hdecodes
  cases hprog : s.hostProgram with
  | nil => exact ⟨s, step_of_no_line hprog⟩
  | cons l rest =>
    obtain ⟨i, hi⟩ := hdecodes l rest hprog
    have hpopped : snapshot (popped rest s) = some p := (snapshot_congr rfl).trans hp
    obtain ⟨t, ht⟩ := exec_completes hpopped i
    exact ⟨t, (step_of_line hprog hi).trans ht⟩

end Sys2Proof.Machine
end

section
/-! PROOFS. The state a hardware reset leaves, and the first packet after it. -/

namespace Sys2Proof.Machine

/-- Settles O12: the reset shares the effect of INIT, on a CONFIG of 0. -/
theorem hardwareResetFromAnyState : Obligations.HardwareResetFromAnyState := by
  intro s
  constructor
  · rfl
  · exact exec_init { s with config := { pid := 0, raw := false } }

/-- A packet that lies whole in PKT is the one ABSORB takes (R72, R223). -/
theorem exec_absorb_ofBytes {p : Bytes} (hlen : p.length = 188) (s : State) :
    exec .absorb { s with pkt := Memory.ofBytes 0 p } = .next (fed p s) := by
  have hsnap : snapshot { s with pkt := Memory.ofBytes 0 p } = some p := by
    simpa [snapshot, Config.pktSize, hlen] using Memory.readBytes_ofBytes p
  exact (exec_absorb _).trans (onPacket_next hsnap)

/-- With no counter recorded the continuity check of a non-start packet fails (R190, R191). -/
theorem row_of_nonStart_of_no_counter {p : Bytes} {s : State} (hp : Spec.pusi p = false) (hlast : s.lastCc = none) :
    Spec.row p s = Spec.lostRow .continuityBroken (some (Spec.header p).cc) := by
  simp [Spec.row, Spec.nonStartRow, Spec.inSequence, hp, hlast]

/-- Settles O34: a reset block has no counter recorded (R291), so the packet takes the LOST row of the failed check. -/
theorem firstNonStartPacketAfterResetIsLost : Obligations.FirstNonStartPacketAfterResetIsLost := by
  intro p cap hlen hp
  have hholds := fed_row_holds hlen (State.resetWith cap)
  rw [row_of_nonStart_of_no_counter hp rfl] at hholds
  obtain ⟨hcode, hcause, hfsm, hcc, _, hlog⟩ := hholds
  exact ⟨fed p (State.resetWith cap), exec_absorb_ofBytes hlen _, hcode, hcause, hfsm, hcc, hlog⟩

end Sys2Proof.Machine
end
